-- ==== Sys2Proof/Word.lean ====
section
/-! DEFINITION. The fixed widths of the hardware (spec/00_scope.md R5, spec/30_encoding.md R61). -/

namespace Sys2Proof

/-- A generator state: 32 bits, unsigned (R5, R22, R23). -/
abbrev Word32 := BitVec 32

/-- The accumulator, the increment, the lag counter and its bound: 16 bits, unsigned (R5). -/
abbrev Word16 := BitVec 16

/-- A published output sample: 8 bits, unsigned (R5, R29). -/
abbrev Sample := BitVec 8

/-- The 20-bit command word `{rst, inc_we, resync, tick, inc_wdata[15:0]}` (R61): notation for the
values of the input ports at one rising edge of `clk`, no bus and no memory content (R9). -/
abbrev CommandWord := BitVec 20

end Sys2Proof
end

