-- ==== Sys2Proof/Machine/NoiseGenerator.lean ====
section
/-! DEFINITION. Sub-block (1): the step and the output sample of a noise generator, one generator in a TICK
(spec/40_noise_generator.md). -/

namespace Sys2Proof.Machine

/-- The feedback constant `TAP`, bits 31, 21, 1 and 0 set (R6). -/
def tap : Word32 := 0x80200003#32

/-- One LFSR step: a logical shift right, XORed with `TAP` when the bit shifted out is 1 (R80, R81). -/
def step32 (x : Word32) : Word32 :=
  if x.getLsbD 0 then (x >>> 1) ^^^ tap else x >>> 1

/-- The inverse of the step (R83). No command uses it. -/
def unstep32 (y : Word32) : Word32 :=
  if y.getLsbD 31 then ((y ^^^ tap) <<< 1) ||| 0x00000001#32 else y <<< 1

/-- The output sample of a generator: its low byte (R84). -/
def lo8 (x : Word32) : Sample := x.extractLsb' 0 8

/-- One generator in one TICK: stepped once when its enable is set, else unchanged (R86). -/
def generatorNext (en : Bool) (x : Word32) : Word32 := if en then step32 x else x

end Sys2Proof.Machine
end

