-- ==== Sys2Proof/Machine/Registers.lean ====
section
/-! DEFINITION. The block's state record `s` of spec/10_state.md R20: eight registers, no other value is
held from one clock edge to the next. -/

namespace Sys2Proof.Machine

/-- The eight fields of R20, under the spec's own names. -/
@[ext]
structure Regs where
  /-- NoiseState A (R22). -/
  A      : Word32
  /-- NoiseState B (R23). -/
  B      : Word32
  /-- PhaseAccumulator (R25). -/
  acc    : Word16
  /-- PhaseIncrement, the only control register (R26). -/
  inc    : Word16
  /-- DroppedSamples, the lag counter (R27). -/
  ds     : Word16
  /-- Direction, "GoingUp": `true` is `s.up = 1`, the FSM state `HoldingBack_B`; `false` is
  `HoldingBack_A` (R28, R100; log entry 13). -/
  up     : Bool
  /-- Published sample of channel A (R29). -/
  duty_a : Sample
  /-- Published sample of channel B (R29). -/
  duty_b : Sample
deriving DecidableEq, Repr, Inhabited

end Sys2Proof.Machine
end

