-- ==== Sys2Proof/Syntax.lean ====
section
/-! DEFINITION. The commands, the input ports they are sampled from, and the assembler's source lines
(spec/30_encoding.md). -/

namespace Sys2Proof

/-- The nine commands, one constructor for each row of spec/opcode_table.json (R63). The operand is the
16-bit immediate `inc_wdata` where `inc_we = 1`; the bits a command ignores are no part of it (R62, R64). -/
inductive Instr where
  /-- `NOP` (R121) -/
  | nop
  /-- `TICK` (R123) -/
  | tick
  /-- `RESYNC` (R124) -/
  | resync
  /-- `RESYNC+TICK` (R125) -/
  | resyncTick
  /-- `SETINC imm16` (R122) -/
  | setinc (imm : Word16)
  /-- `SETINC+TICK imm16` (R126) -/
  | setincTick (imm : Word16)
  /-- `SETINC+RESYNC imm16` (R127) -/
  | setincResync (imm : Word16)
  /-- `SETINC+RESYNC+TICK imm16` (R128) -/
  | setincResyncTick (imm : Word16)
  /-- `RESET` (R129) -/
  | reset
deriving DecidableEq, Repr, Inhabited

/-- The values the block samples on its input ports at one rising edge of `clk` (R60). Each strobe is
exactly 0 or 1 (R167): `true` is 1. -/
structure Inputs where
  rst       : Bool
  inc_we    : Bool
  resync    : Bool
  tick      : Bool
  inc_wdata : Word16
deriving DecidableEq, Repr, Inhabited

/-- The mnemonics of the textual syntax (R65). -/
inductive CommandName where
  | nop | tick | resync | resyncTick
  | setinc | setincTick | setincResync | setincResyncTick
  | reset
deriving DecidableEq, Repr

/-- One source line of a command sequence after its comment is taken off (R65, R66). Numbers are not yet
bounded here: the assembler refuses an immediate out of range and never truncates it. -/
inductive SourceLine where
  /-- An empty or comment-only line: no command, no cycle. -/
  | blank
  /-- A mnemonic with or without an immediate. -/
  | command (name : CommandName) (imm : Option Nat)
  /-- The pseudo-command `TICKN n`. -/
  | tickn (n : Nat)
  /-- The pseudo-command `IDLE n`. -/
  | idle (n : Nat)
deriving DecidableEq, Repr

end Sys2Proof
end

