-- ==== Sys2Proof/Config.lean ====
section
/-! DEFINITION. What an instance fixes (the elaboration parameters of spec/00_scope.md R7) and the free
values: what the spec leaves open, as constants without a body. -/

namespace Sys2Proof

/-- The five elaboration parameters of R7, at their widths. They are constants of an instance (R30). -/
structure Params where
  /-- `SEED_A` -/
  seedA                : Word32
  /-- `SEED_B` -/
  seedB                : Word32
  /-- `PHASE_ACC_INIT` -/
  phaseAccInit         : Word16
  /-- `PHASE_INC_INIT` -/
  phaseIncInit         : Word16
  /-- `TARGET_DROPPED_SAMPLES`, written `T` -/
  targetDroppedSamples : Word16
deriving DecidableEq, Repr

namespace Config

/-- The default of each parameter (R7). -/
def defaultParams : Params :=
  { seedA := 0x00000001#32, seedB := 0x00000001#32, phaseAccInit := 0x0001#16,
    phaseIncInit := 0xFFC0#16, targetDroppedSamples := 80#16 }

/-- FREE VALUE (R161, U3 "any value"; log entry 4). What the eight registers hold after a command that is
no RESET and comes before the first RESET: no rule gives it, so nothing constrains it. It may depend on how
many free values were drawn before, on the command and on what the registers held. -/
opaque unspecifiedRegs : Nat → Instr → Machine.Regs → Machine.Regs

/-- FREE VALUE (R147, U10; log entry 3). What the external agents drive on the input ports at a rising edge
for which the state lists no sample: any value of the ports. -/
opaque undrivenInputs : Nat → Inputs

end Config

/-- A request for an instance, as the outside world makes it at elaboration: numbers of any size (R8). -/
structure ParamRequest where
  seedA                : Nat
  seedB                : Nat
  phaseAccInit         : Nat
  phaseIncInit         : Nat
  targetDroppedSamples : Nat
deriving DecidableEq, Repr

/-- The parameters at their widths. Only a request that passes `ParamRequest.wellFormed` is used so. -/
def ParamRequest.toParams (r : ParamRequest) : Params :=
  { seedA := BitVec.ofNat 32 r.seedA, seedB := BitVec.ofNat 32 r.seedB,
    phaseAccInit := BitVec.ofNat 16 r.phaseAccInit, phaseIncInit := BitVec.ofNat 16 r.phaseIncInit,
    targetDroppedSamples := BitVec.ofNat 16 r.targetDroppedSamples }

end Sys2Proof
end

