-- ==== Sys2Proof/Machine/State.lean ====
section
/-! DEFINITION. The machine's state as plain data, the reasons a step can stop, and the state right after
reset (spec/10_state.md, spec/60_exceptions.md R140, spec/70_reset_and_hazards.md R160, R161). -/

namespace Sys2Proof.Machine

/-- The faults of the machine: none. "The block raises no exception, trap or fault, synchronous or
asynchronous" (R140); the type has no constructor, so no step can end in one (log entry 8). -/
inductive Fault where
deriving DecidableEq, Repr

/-- The refusals: where the model gives no meaning. -/
inductive Refusal where
  /-- An instruction that has no meaning yet, by its mnemonic. Raised by a refused arm of `exec`; no arm is
  refused in this model. Safe. -/
  | notModelled (mnemonic : String)
  /-- A parameter value out of the range of R7: "the instance does not exist, and a model must reject the
  configuration rather than give it a meaning" (R8, U2). Raised by `elaborate` and by every command in a
  state with such parameters (log entry 6). Safe. -/
  | illegalParameters
deriving DecidableEq, Repr

/-- The state. `regs` is the hardware's own (R20); `params` are the constants of the instance (R7, R30);
`started` says on which side of the first RESET the machine is (R161); `inputs` and `draws` are the model's
own fields (log entries 2, 3 and 4). -/
structure State where
  /-- The elaboration parameters of this instance (R7): no command writes them (R30; log entry 1). -/
  params  : Params
  /-- A RESET edge has occurred (R161; log entry 4). -/
  started : Bool
  /-- The eight registers (R20). Before the first RESET no value of theirs means anything (R161). -/
  regs    : Regs
  /-- What the input ports carry at the coming rising edges, the next edge first (R60; log entry 2). -/
  inputs  : List Inputs
  /-- How many free values have been drawn (log entries 3 and 4). -/
  draws   : Nat
deriving DecidableEq, Repr

/-- The machine right after RESET, with the default parameters (R7, R22 to R29, R160): no port sample is
listed and no free value has been drawn (log entry 5). -/
def State.reset : State :=
  { params := Config.defaultParams
    started := true
    regs :=
      { A := 0x00000001#32, B := 0x00000001#32, acc := 0x0001#16, inc := 0xFFC0#16,
        ds := 0x0000#16, up := true, duty_a := 0x00#8, duty_b := 0x00#8 }
    inputs := []
    draws := 0 }

end Sys2Proof.Machine
end

