-- ==== Sys2Proof/Machine/DutyMux.lean ====
section
/-! DEFINITION. Sub-block (4): the publication of the two samples, and the output ports that show them
(spec/43_pwm_duty_mux.md). -/

namespace Sys2Proof.Machine

/-- Publish the low byte of each generator's post-step state, A only to `duty_a` and B only to `duty_b`
(R115, R117). -/
def publish (r : Regs) : Regs := { r with duty_a := lo8 r.A, duty_b := lo8 r.B }

/-- The output port `duty_a`: the register, continuously (R29, R118); no value before the first RESET
(R161; log entry 12). Reading it changes nothing (R45). -/
def outDutyA (s : State) : Option Sample := if s.started then some s.regs.duty_a else none

/-- The output port `duty_b`, likewise. -/
def outDutyB (s : State) : Option Sample := if s.started then some s.regs.duty_b else none

end Sys2Proof.Machine
end

