-- ==== Sys2Proof/Machine/PhaseAccumulator.lean ====
section
/-! DEFINITION. Sub-block (2): the phase accumulator's add (spec/41_phase_accumulator.md R90). Its overflow
detector is in Machine/Flags.lean. -/

namespace Sys2Proof.Machine

/-- The wrapping 16-bit sum of the old accumulator and the increment (R90). -/
def accNext (accOld inc : Word16) : Word16 := accOld + inc

end Sys2Proof.Machine
end

