-- ==== Sys2Proof/Machine/Flags.lean ====
section
/-! DEFINITION. The block's one internal signal `ov` and its one status flag `up` (spec/10_state.md R31;
spec/41_phase_accumulator.md R91; spec/42_flange_fsm.md R104, R105). -/

namespace Sys2Proof.Machine

/-- The overflow detector: the new accumulator value is numerically less than the old one (R91). -/
def overflow (accOld accNew : Word16) : Bool := accNew.ult accOld

/-- The overflow signal of a TICK that adds `inc` to `accOld` (R90, R91). -/
def overflowOf (accOld inc : Word16) : Bool := overflow accOld (accNext accOld inc)

/-- The direction after a TICK: inverted when, on an overflow tick, the updated counter equals its bound, `T`
while counting up and 0 while counting down; else kept (R104, R105, D15, D16). -/
def upNext (T : Word16) (up ov : Bool) (dsNew : Word16) : Bool :=
  match ov, up with
  | true,  true  => if dsNew = T then false else true
  | true,  false => if dsNew = 0x0000#16 then true else false
  | false, up    => up

end Sys2Proof.Machine
end

