-- ==== Sys2Proof/Machine/FlangeFsm.lean ====
section
/-! DEFINITION. Sub-block (3): the step enables and the lag counter of the flange FSM
(spec/42_flange_fsm.md; 90_conflicts.md C1 for which channel is held back). Its flip test is in
Machine/Flags.lean. -/

namespace Sys2Proof.Machine

/-- The enable of generator A: while counting up A steps only on ticks without overflow, while counting down
on every tick (R101). -/
def enableA (up ov : Bool) : Bool :=
  match up with
  | true  => !ov
  | false => true

/-- The enable of generator B: while counting up B steps on every tick, while counting down only on ticks
without overflow (R101). -/
def enableB (up ov : Bool) : Bool :=
  match up with
  | true  => true
  | false => !ov

/-- The lag counter after a TICK: on overflow one more while counting up (R102) and one less while counting
down (R103), both modulo 2^16 (D15); without overflow unchanged (R105). -/
def dsNext (up ov : Bool) (ds : Word16) : Word16 :=
  match ov, up with
  | true,  true  => ds + 0x0001#16
  | true,  false => ds - 0x0001#16
  | false, _     => ds

end Sys2Proof.Machine
end

