-- ==== Sys2Proof/WellFormed.lean ====
section
/-! DEFINITION. The checks: which parameters an instance may have (spec/00_scope.md R7, R8) and which source
lines the assembler accepts (spec/30_encoding.md R65). A command (`Instr`) needs no check of its own: its one
operand has the width of `inc_wdata`, every value is legal (R26, R62), and no command is illegal (R64). -/

namespace Sys2Proof

/-- The legal values of R7 for a request: each parameter in its range, none wrapped into it. -/
def ParamRequest.wellFormed (r : ParamRequest) : Bool :=
  decide (1 ≤ r.seedA ∧ r.seedA ≤ 0xFFFFFFFF) &&
  decide (1 ≤ r.seedB ∧ r.seedB ≤ 0xFFFFFFFF) &&
  decide (1 ≤ r.phaseAccInit ∧ r.phaseAccInit ≤ 0xFFFF) &&
  decide (r.phaseIncInit ≤ 0xFFFF) &&
  decide (1 ≤ r.targetDroppedSamples ∧ r.targetDroppedSamples ≤ 65535)

/-- The legal values of R7 for parameters already at their widths: both seeds, the accumulator's initial
value and the depth are non-zero; every initial increment is legal. -/
def Params.legal (p : Params) : Bool :=
  p.seedA != 0#32 && p.seedB != 0#32 && p.phaseAccInit != 0#16 && p.targetDroppedSamples != 0#16

/-- Which mnemonics take an immediate: the four forms with SETINC (R65). -/
def CommandName.takesImm : CommandName → Bool
  | .setinc | .setincTick | .setincResync | .setincResyncTick => true
  | .nop | .tick | .resync | .resyncTick | .reset => false

/-- A source line the assembler accepts: an immediate exactly where the mnemonic takes one, and in
0..65535 (R65). -/
def SourceLine.wellFormed : SourceLine → Bool
  | .blank => true
  | .command name none => !name.takesImm
  | .command name (some imm) => name.takesImm && decide (imm ≤ 65535)
  | .tickn _ => true
  | .idle _ => true

end Sys2Proof
end

