-- ==== Sys2Proof/Decode.lean ====
section
/-! DEFINITION. The command word: its fields, the decoder, and the encoder written from the same table
(spec/30_encoding.md R61, R63, R65; spec/opcode_table.json). -/

namespace Sys2Proof

/-! ## Fields of the command word (R61) -/

/-- Bit 19, `rst`. -/
def rstBit (w : CommandWord) : Bool := w.getLsbD 19
/-- Bit 18, `inc_we`. -/
def incWeBit (w : CommandWord) : Bool := w.getLsbD 18
/-- Bit 17, `resync`. -/
def resyncBit (w : CommandWord) : Bool := w.getLsbD 17
/-- Bit 16, `tick`. -/
def tickBit (w : CommandWord) : Bool := w.getLsbD 16
/-- Bits 15:0, `inc_wdata`, taken unchanged: no extension, no scaling, no shift (R62). -/
def incWdataField (w : CommandWord) : Word16 := w.extractLsb' 0 16

/-- The command word `{rst, inc_we, resync, tick, inc_wdata[15:0]}` (R61). -/
def packWord (rst inc_we resync tick : Bool) (inc_wdata : Word16) : CommandWord :=
  BitVec.ofBool rst ++ BitVec.ofBool inc_we ++ BitVec.ofBool resync ++ BitVec.ofBool tick ++ inc_wdata

/-! ## The decoder (R63) -/

/-- Every command word is exactly one command: `rst` first, then bits 18:16 select one of eight rows (R63).
It is total and refuses no word (R64). -/
def decode (w : CommandWord) : Instr :=
  if rstBit w then .reset
  else
    match incWeBit w, resyncBit w, tickBit w with
    | false, false, false => .nop
    | false, false, true  => .tick
    | false, true,  false => .resync
    | false, true,  true  => .resyncTick
    | true,  false, false => .setinc (incWdataField w)
    | true,  false, true  => .setincTick (incWdataField w)
    | true,  true,  false => .setincResync (incWdataField w)
    | true,  true,  true  => .setincResyncTick (incWdataField w)

/-- Why a number is no command word. -/
inductive DecodeError where
  /-- It has a bit above bit 19: a command word has 20 bits (R61). Raised by `decodeBits`; safe. -/
  | notACommandWord
deriving DecidableEq, Repr

/-- The command word among the low `nbits` bits of `w`, if those bits are one: no bit above bit 19 is set
(log entry 9). -/
def commandWordOfBits (nbits w : Nat) : Option CommandWord :=
  let v := w % 2 ^ nbits
  if v < 2 ^ 20 then some (BitVec.ofNat 20 v) else none

/-- The decoder on any number of bits: rejects by name what is no 20-bit command word. -/
def decodeBits (nbits w : Nat) : Except DecodeError Instr :=
  match commandWordOfBits nbits w with
  | some cw => .ok (decode cw)
  | none => .error .notACommandWord

/-- The instruction read from bits numbered as spec/opcode_table.json numbers them. -/
def decodeTableWord (nbits w : Nat) : Option Instr :=
  match decodeBits nbits w with
  | .ok i => some i
  | .error _ => none

/-! ## The encoder (R63, R65) -/

/-- The word the assembler makes of a command: the strobe bits of its mnemonic, the immediate of the SETINC
forms, and 0x0000 in the bits the command ignores (R65). -/
def encode : Instr → CommandWord
  | .nop                  => packWord false false false false 0x0000#16
  | .tick                 => packWord false false false true  0x0000#16
  | .resync               => packWord false false true  false 0x0000#16
  | .resyncTick           => packWord false false true  true  0x0000#16
  | .setinc imm           => packWord false true  false false imm
  | .setincTick imm       => packWord false true  false true  imm
  | .setincResync imm     => packWord false true  true  false imm
  | .setincResyncTick imm => packWord false true  true  true  imm
  | .reset                => packWord true  false false false 0x0000#16

/-! ## The command map as a table (R63) -/

/-- One row of the command map: a word `w` is the command when `w &&& mask = bits`. -/
structure OpcodeRow where
  bits : CommandWord
  mask : CommandWord
deriving DecidableEq, Repr

/-- The row (match, mask) that spec/opcode_table.json gives a command. -/
def opcodeRow : Instr → OpcodeRow
  | .nop                => ⟨0x00000#20, 0xF0000#20⟩
  | .tick               => ⟨0x10000#20, 0xF0000#20⟩
  | .resync             => ⟨0x20000#20, 0xF0000#20⟩
  | .resyncTick         => ⟨0x30000#20, 0xF0000#20⟩
  | .setinc _           => ⟨0x40000#20, 0xF0000#20⟩
  | .setincTick _       => ⟨0x50000#20, 0xF0000#20⟩
  | .setincResync _     => ⟨0x60000#20, 0xF0000#20⟩
  | .setincResyncTick _ => ⟨0x70000#20, 0xF0000#20⟩
  | .reset              => ⟨0x80000#20, 0x80000#20⟩

/-- The nine rows in the order of R63. -/
def opcodeTable : List OpcodeRow :=
  [⟨0x00000#20, 0xF0000#20⟩, ⟨0x10000#20, 0xF0000#20⟩, ⟨0x20000#20, 0xF0000#20⟩] ++
  [⟨0x30000#20, 0xF0000#20⟩, ⟨0x40000#20, 0xF0000#20⟩, ⟨0x50000#20, 0xF0000#20⟩] ++
  [⟨0x60000#20, 0xF0000#20⟩, ⟨0x70000#20, 0xF0000#20⟩, ⟨0x80000#20, 0x80000#20⟩]

/-- A word belongs to a row (R63). -/
def OpcodeRow.matches (row : OpcodeRow) (w : CommandWord) : Bool := w &&& row.mask == row.bits

end Sys2Proof
end

