-- ==== Sys2Proof/Machine/Operands.lean ====
section
/-! DEFINITION. How the input ports make a command and what its one operand is (spec/30_encoding.md R60, R61,
R62), and which of the three parts SETINC, RESYNC, TICK a command holds (spec/20_memory.md R47). -/

namespace Sys2Proof

/-- The command word that names the port values sampled at one edge (R61). -/
def Inputs.commandWord (p : Inputs) : CommandWord :=
  packWord p.rst p.inc_we p.resync p.tick p.inc_wdata

/-- The port values that a command word names (R61). -/
def Inputs.ofCommandWord (w : CommandWord) : Inputs :=
  { rst := rstBit w, inc_we := incWeBit w, resync := resyncBit w, tick := tickBit w,
    inc_wdata := incWdataField w }

namespace Instr

/-- The value the SETINC part of a command writes, if it has one: the immediate unchanged (R62). -/
def setincPart : Instr → Option Word16
  | .setinc imm           => some imm
  | .setincTick imm       => some imm
  | .setincResync imm     => some imm
  | .setincResyncTick imm => some imm
  | .nop | .tick | .resync | .resyncTick | .reset => none

/-- The command has a RESYNC part. -/
def hasResync : Instr → Bool
  | .resync | .resyncTick | .setincResync _ | .setincResyncTick _ => true
  | .nop | .tick | .setinc _ | .setincTick _ | .reset => false

/-- The command has a TICK part. -/
def hasTick : Instr → Bool
  | .tick | .resyncTick | .setincTick _ | .setincResyncTick _ => true
  | .nop | .resync | .setinc _ | .setincResync _ | .reset => false

/-- The command is RESET, which overrides every part (R129). -/
def isReset : Instr → Bool
  | .reset => true
  | .nop | .tick | .resync | .resyncTick => false
  | .setinc _ | .setincTick _ | .setincResync _ | .setincResyncTick _ => false

/-- Every command completes at the edge that samples it: one clock cycle (R168, R169). -/
def cycles : Instr → Nat
  | .nop | .tick | .resync | .resyncTick | .reset => 1
  | .setinc _ | .setincTick _ | .setincResync _ | .setincResyncTick _ => 1

end Instr

end Sys2Proof
end

