-- ==== Sys2Proof/Machine/Ops.lean ====
section
/-! DEFINITION. The shared operations: SetInc, Resync and Tick on the registers, the reset values, a command's
clock edge, sampling the ports, and elaboration (spec/44_commands.md, spec/20_memory.md,
spec/70_reset_and_hazards.md). The block takes no exception (R140, R146), so there is no exception entry and
no return from one. -/

namespace Sys2Proof.Machine

/-- `SetInc(s, v)`: all 16 bits of the increment at once (R122). -/
def setIncRegs (v : Word16) (r : Regs) : Regs := { r with inc := v }

/-- `Resync(s)`: A takes B's state, the lag counter 0, the direction up (R124). -/
def resyncRegs (r : Regs) : Regs := { r with A := r.B, ds := 0x0000#16, up := true }

/-- `Tick(s)`: one per-tick transition with depth `T`, all of it from the state before the tick (R123). -/
def tickRegs (T : Word16) (r : Regs) : Regs :=
  let ov := overflowOf r.acc r.inc
  let ds' := dsNext r.up ov r.ds
  publish
    { r with
      acc := accNext r.acc r.inc
      A := generatorNext (enableA r.up ov) r.A
      B := generatorNext (enableB r.up ov) r.B
      ds := ds'
      up := upNext T r.up ov ds' }

/-- The reset value of every field (R22 to R29, R129). -/
def resetRegs (p : Params) : Regs :=
  { A := p.seedA, B := p.seedB, acc := p.phaseAccInit, inc := p.phaseIncInit,
    ds := 0x0000#16, up := true, duty_a := 0x00#8, duty_b := 0x00#8 }

/-- The machine right after RESET in an instance with parameters `p` (R160). -/
def State.resetOf (p : Params) : State :=
  { params := p, started := true, regs := resetRegs p, inputs := [], draws := 0 }

/-- One clock edge with command `i`, no RESET, whose effect on the registers is `effect`. After the first RESET
the registers take that effect, whole, at this edge (R43). Before it no field has a value and the result of a
command is not defined (R161): every register takes a free value (log entry 4). With parameters out of range
there is no instance (R8): refused. -/
def State.atEdge (i : Instr) (effect : Regs → Regs) (s : State) : Host.Outcome State Fault Refusal :=
  if s.params.legal then
    if s.started then .next { s with regs := effect s.regs }
    else .next { s with regs := Config.unspecifiedRegs s.draws i s.regs, draws := s.draws + 1 }
  else .refused .illegalParameters

/-- One clock edge with RESET: every field at its reset value, whatever it was before, also where it had no
value (R129, R160, R161). -/
def State.atResetEdge (s : State) : Host.Outcome State Fault Refusal :=
  if s.params.legal then .next { s with started := true, regs := resetRegs s.params }
  else .refused .illegalParameters

/-- Sample the input ports at a rising edge (R60): the first listed sample, which is then used up; where none
is listed a free value (log entries 2 and 3). -/
def State.sampleInputs (s : State) : Inputs × State :=
  match s.inputs with
  | p :: rest => (p, { s with inputs := rest })
  | [] => (Config.undrivenInputs s.draws, { s with draws := s.draws + 1 })

/-- Drive the ports at the next rising edge with `p`: it takes the place of the sample listed for that edge. -/
def State.driveNext (s : State) (p : Inputs) : State := { s with inputs := p :: s.inputs.drop 1 }

/-- A machine that has been elaborated and has seen no RESET (R161, R162): its registers hold `junk`, about
which nothing is known. -/
def State.powerUp (p : Params) (junk : Regs) (inputs : List Inputs) (draws : Nat) : State :=
  { params := p, started := false, regs := junk, inputs := inputs, draws := draws }

/-- Elaboration: the machine before its first RESET, or the refusal of a parameter value out of range
(R7, R8, R162 step 1). -/
def elaborate (r : ParamRequest) (junk : Regs) (inputs : List Inputs) (draws : Nat) :
    Host.Outcome State Fault Refusal :=
  if r.wellFormed then .next (State.powerUp r.toParams junk inputs draws)
  else .refused .illegalParameters

end Sys2Proof.Machine
end

