-- ==== Sys2Proof/Machine/Commands.lean ====
section
/-! DEFINITION. The meaning of each command, one definition for each row of the command map
(spec/44_commands.md R121 to R129; the order of the parts is that of spec/20_memory.md R47). -/

namespace Sys2Proof.Machine

/-- `NOP` (R121): `s' <- s`. -/
def execNop (s : State) : Host.Outcome State Fault Refusal :=
  s.atEdge .nop fun r => r

/-- `TICK` (R123): `s' <- Tick(s)`. -/
def execTick (s : State) : Host.Outcome State Fault Refusal :=
  s.atEdge .tick fun r => tickRegs s.params.targetDroppedSamples r

/-- `RESYNC` (R124): `s' <- Resync(s)`. -/
def execResync (s : State) : Host.Outcome State Fault Refusal :=
  s.atEdge .resync fun r => resyncRegs r

/-- `RESYNC+TICK` (R125): `s' <- Tick(Resync(s))`. -/
def execResyncTick (s : State) : Host.Outcome State Fault Refusal :=
  s.atEdge .resyncTick fun r => tickRegs s.params.targetDroppedSamples (resyncRegs r)

/-- `SETINC imm16` (R122): `s' <- SetInc(s, imm16)`. -/
def execSetinc (imm : Word16) (s : State) : Host.Outcome State Fault Refusal :=
  s.atEdge (.setinc imm) fun r => setIncRegs imm r

/-- `SETINC+TICK imm16` (R126): `s' <- Tick(SetInc(s, imm16))`. -/
def execSetincTick (imm : Word16) (s : State) : Host.Outcome State Fault Refusal :=
  s.atEdge (.setincTick imm) fun r => tickRegs s.params.targetDroppedSamples (setIncRegs imm r)

/-- `SETINC+RESYNC imm16` (R127): `s' <- Resync(SetInc(s, imm16))`. -/
def execSetincResync (imm : Word16) (s : State) : Host.Outcome State Fault Refusal :=
  s.atEdge (.setincResync imm) fun r => resyncRegs (setIncRegs imm r)

/-- `SETINC+RESYNC+TICK imm16` (R128): `s' <- Tick(Resync(SetInc(s, imm16)))`. -/
def execSetincResyncTick (imm : Word16) (s : State) : Host.Outcome State Fault Refusal :=
  s.atEdge (.setincResyncTick imm) fun r =>
    tickRegs s.params.targetDroppedSamples (resyncRegs (setIncRegs imm r))

/-- `RESET` (R129): every field takes its reset value. -/
def execReset (s : State) : Host.Outcome State Fault Refusal :=
  s.atResetEdge

end Sys2Proof.Machine
end

