-- ==== Sys2Proof/Machine/Dispatch.lean ====
section
/-! DEFINITION. One arm for each command of the map (spec/30_encoding.md R63, spec/44_commands.md R120). -/

namespace Sys2Proof.Machine

/-- The meaning of a command in a state. -/
def exec (i : Instr) (s : State) : Host.Outcome State Fault Refusal :=
  match i with
  | .nop => Sys2Proof.Machine.execNop s
  | .tick => Sys2Proof.Machine.execTick s
  | .resync => Sys2Proof.Machine.execResync s
  | .resyncTick => Sys2Proof.Machine.execResyncTick s
  | .setinc imm => Sys2Proof.Machine.execSetinc imm s
  | .setincTick imm => Sys2Proof.Machine.execSetincTick imm s
  | .setincResync imm => Sys2Proof.Machine.execSetincResync imm s
  | .setincResyncTick imm => Sys2Proof.Machine.execSetincResyncTick imm s
  | .reset => Sys2Proof.Machine.execReset s

end Sys2Proof.Machine
end

