-- ==== Sys2Proof/Machine/Step.lean ====
section
/-! DEFINITION. One step of the machine: one rising edge of `clk` (spec/44_commands.md R120). -/

namespace Sys2Proof.Machine

/-- One rising edge: sample the input ports, take the command they name, run it (R60, R61, R63, R120). -/
def step (s : State) : Host.Outcome State Fault Refusal :=
  exec (decode s.sampleInputs.1.commandWord) s.sampleInputs.2

/-- `s` with the command word in the low `nbits` bits of `w` driven on the input ports at the next edge, so
that the next step runs it. A number that is no command word drives nothing (log entry 9). -/
def State.withFetchWord (s : State) (nbits w : Nat) : State :=
  match commandWordOfBits nbits w with
  | some cw => s.driveNext (Inputs.ofCommandWord cw)
  | none => s

end Sys2Proof.Machine
end

