-- ==== Sys2Proof/Machine/Assembler.lean ====
section
/-! DEFINITION. The textual syntax of command sequences: text to source lines, source lines to commands,
commands to command words, and the presentation of the words on successive edges
(spec/30_encoding.md R65, R66; 92_eei_decisions.md D20, D26). Conventions R65 leaves open: log entry 10. -/

namespace Sys2Proof.Assembler

/-- Why the assembler refuses a line. -/
inductive AsmError where
  /-- The first word is no mnemonic and no pseudo-command. -/
  | unknownCommand
  /-- A SETINC form without its immediate, or a pseudo-command without its count. -/
  | missingOperand
  /-- An operand on a command that takes none. -/
  | unexpectedOperand
  /-- An operand that is no number of the syntax. -/
  | badNumber
  /-- An immediate outside 0..65535: refused, never truncated. -/
  | immediateOutOfRange
deriving DecidableEq, Repr

/-! ## Characters to words -/

/-- Cut a text at every separator. -/
def splitOn (sep : Char → Bool) : List Char → List (List Char)
  | [] => [[]]
  | c :: cs =>
    match sep c, splitOn sep cs with
    | true,  parts => [] :: parts
    | false, []    => [[c]]
    | false, part :: parts => (c :: part) :: parts

/-- White space inside a line. -/
def isBlank (c : Char) : Bool := c == ' ' || c == '\t' || c == '\r'

/-- The words of a line, its comment (from `;` on) taken off (R65). -/
def wordsOf (line : List Char) : List (List Char) :=
  (splitOn isBlank (line.takeWhile (· != ';'))).filter (· != [])

/-- The value of a character as a digit below `base`, the number whose digit character it is; a letter digit may
stand in either case. -/
def digitOf (base : Nat) (c : Char) : Option Nat :=
  (List.range base).find? fun d => d.digitChar == c.toLower

/-- The number that `digits` write when they follow digits of value `before`, most significant digit first. -/
def numberFrom (base before : Nat) : List Char → Option Nat
  | [] => some before
  | c :: digits => (digitOf base c).bind fun d => numberFrom base (before * base + d) digits

/-- A decimal number: at least one digit. -/
def parseDecimal : List Char → Option Nat
  | [] => none
  | c :: digits => numberFrom 10 0 (c :: digits)

/-- `imm16 ::= "0x" hexdigit{1..4} | decimal` (R65). The range of a decimal is checked later. -/
def parseImm : List Char → Option Nat
  | '0' :: 'x' :: ds => if 1 ≤ ds.length ∧ ds.length ≤ 4 then numberFrom 16 0 ds else none
  | ds => parseDecimal ds

/-! ## Words to source lines -/

/-- The first word of a command line. -/
inductive Keyword where
  | command (name : CommandName)
  | tickn
  | idle
deriving DecidableEq, Repr

/-- The mnemonics, in upper case, the parts of a combined one in the order SETINC, RESYNC, TICK, and the two
pseudo-commands (R65, R66). -/
def keywords : List (List Char × Keyword) :=
  [(['N','O','P'], .command .nop),
   (['T','I','C','K'], .command .tick),
   (['R','E','S','Y','N','C'], .command .resync),
   (['R','E','S','Y','N','C','+','T','I','C','K'], .command .resyncTick),
   (['S','E','T','I','N','C'], .command .setinc)] ++
  [(['S','E','T','I','N','C','+','T','I','C','K'], .command .setincTick),
   (['S','E','T','I','N','C','+','R','E','S','Y','N','C'], .command .setincResync),
   (['S','E','T','I','N','C','+','R','E','S','Y','N','C','+','T','I','C','K'], .command .setincResyncTick),
   (['R','E','S','E','T'], .command .reset)] ++
  [(['T','I','C','K','N'], .tickn), (['I','D','L','E'], .idle)]

/-- Look a word up among the mnemonics. -/
def keywordOf (word : List Char) : Option Keyword :=
  (keywords.find? (·.1 == word)).map (·.2)

/-- The source line that a line's words write (R65, R66). -/
def parseWords : List (List Char) → Except AsmError SourceLine
  | [] => .ok .blank
  | [word] =>
    match keywordOf word with
    | some (.command name) => .ok (.command name none)
    | some .tickn | some .idle => .error .missingOperand
    | none => .error .unknownCommand
  | [word, operand] =>
    match keywordOf word with
    | some (.command name) =>
      match parseImm operand with
      | some imm => .ok (.command name (some imm))
      | none => .error .badNumber
    | some .tickn =>
      match parseDecimal operand with
      | some n => .ok (.tickn n)
      | none => .error .badNumber
    | some .idle =>
      match parseDecimal operand with
      | some n => .ok (.idle n)
      | none => .error .badNumber
    | none => .error .unknownCommand
  | word :: _ :: _ :: _ =>
    match keywordOf word with
    | some _ => .error .unexpectedOperand
    | none => .error .unknownCommand

/-! ## Source lines to commands -/

/-- The command a mnemonic writes without an immediate. -/
def plainCommand : CommandName → Option Instr
  | .nop => some .nop
  | .tick => some .tick
  | .resync => some .resync
  | .resyncTick => some .resyncTick
  | .reset => some .reset
  | .setinc | .setincTick | .setincResync | .setincResyncTick => none

/-- The command a mnemonic writes with an immediate. -/
def immCommand (imm : Word16) : CommandName → Option Instr
  | .setinc => some (.setinc imm)
  | .setincTick => some (.setincTick imm)
  | .setincResync => some (.setincResync imm)
  | .setincResyncTick => some (.setincResyncTick imm)
  | .nop | .tick | .resync | .resyncTick | .reset => none

/-- The commands of one source line, the pseudo-commands expanded (R65, R66). -/
def expandLine : SourceLine → Except AsmError (List Instr)
  | .blank => .ok []
  | .command name none =>
    match plainCommand name with
    | some i => .ok [i]
    | none => .error .missingOperand
  | .command name (some imm) =>
    match immCommand (BitVec.ofNat 16 imm) name with
    | some i => if imm ≤ 65535 then .ok [i] else .error .immediateOutOfRange
    | none => .error .unexpectedOperand
  | .tickn n => .ok (List.replicate n .tick)
  | .idle n => .ok (List.replicate n .nop)

/-- How many clock cycles a source line takes (R65, R66, R169). -/
def lineCycles : SourceLine → Nat
  | .blank => 0
  | .command _ _ => 1
  | .tickn n => n
  | .idle n => n

/-- The commands of a list of source lines, or the first refusal. -/
def expandLines : List SourceLine → Except AsmError (List Instr)
  | [] => .ok []
  | line :: lines =>
    match expandLine line, expandLines lines with
    | .error e, _ => .error e
    | .ok _, .error e => .error e
    | .ok is, .ok more => .ok (is ++ more)

/-! ## Text to command words -/

/-- The source lines of a text, or the first refusal. -/
def parseLines : List (List Char) → Except AsmError (List SourceLine)
  | [] => .ok []
  | line :: lines =>
    match parseWords (wordsOf line), parseLines lines with
    | .error e, _ => .error e
    | .ok _, .error e => .error e
    | .ok l, .ok more => .ok (l :: more)

/-- The commands a text writes, one for each clock cycle. -/
def commandsOf (text : List Char) : Except AsmError (List Instr) :=
  match parseLines (splitOn (· == '\n') text) with
  | .error e => .error e
  | .ok lines => expandLines lines

/-- Assemble a text to its command words (R61, R65). -/
def assemble (text : List Char) : Except AsmError (List CommandWord) :=
  match commandsOf text with
  | .error e => .error e
  | .ok is => .ok (is.map encode)

/-- Present a sequence of command words on the ports at the next rising edges, one at each: this is all that
"running a program" means here (D20). -/
def present (words : List CommandWord) (s : Machine.State) : Machine.State :=
  { s with inputs := words.map Inputs.ofCommandWord ++ s.inputs.drop words.length }

end Sys2Proof.Assembler
end

