-- ==== Sys2Proof/Safety.lean ====
section
/-! DEFINITION. The terms the statements use: a running machine, runs of commands, what is counted along a
run, and the invariants (spec/42_flange_fsm.md R108, R109; spec/10_state.md R24, R32). -/

namespace Sys2Proof.Assembler

/-- One word of a source line: not empty, and no blank, no comment and no new line in it (R65). -/
abbrev IsWord (word : List Char) : Prop :=
  word ≠ [] ∧ ∀ c ∈ word, isBlank c = false ∧ c ≠ ';' ∧ c ≠ '\n'

end Sys2Proof.Assembler

namespace Sys2Proof.Machine

/-- The machine is an instance (its parameters are legal, R8) and has been reset at least once (R161). -/
abbrev State.Running (s : State) : Prop := s.params.legal = true ∧ s.started = true

/-- Run a list of commands, one at each edge, stopping at the first fault or refusal (R46). -/
def runCommands : List Instr → State → Host.Outcome State Fault Refusal
  | [], s => .next s
  | i :: is, s =>
    match exec i s with
    | .next t => runCommands is t
    | .fault f => .fault f
    | .refused r => .refused r

/-- Run `n` steps, one rising edge each, stopping at the first fault or refusal: the host's `core.run`. -/
def runSteps : Nat → State → Host.Outcome State Fault Refusal
  | 0, s => .next s
  | n + 1, s =>
    match step s with
    | .next t => runSteps n t
    | .fault f => .fault f
    | .refused r => .refused r

/-- The registers that the TICK part of a command sees: those before the edge after the SETINC part and the
RESYNC part (R47). -/
def beforeTick (i : Instr) (r : Regs) : Regs :=
  let r1 := match i.setincPart with
    | some v => setIncRegs v r
    | none => r
  if i.hasResync then resyncRegs r1 else r1

/-- The overflow signal of the TICK that would see these registers (R91). -/
def Regs.ov (r : Regs) : Bool := overflowOf r.acc r.inc

/-- What R94, R109 and R110 count along a run of commands. -/
structure Tally where
  /-- How often generator A was stepped. -/
  kA  : Nat
  /-- How often generator B was stepped. -/
  kB  : Nat
  /-- How many ticks overflowed. -/
  ovs : Nat
deriving DecidableEq, Repr

/-- What one command adds to the counts in a state. -/
def tallyOf (i : Instr) (s : State) : Tally :=
  let r := beforeTick i s.regs
  if i.hasTick then
    { kA := (enableA r.up r.ov).toNat, kB := (enableB r.up r.ov).toNat, ovs := r.ov.toNat }
  else { kA := 0, kB := 0, ovs := 0 }

/-- The counts along a run of commands. -/
def tally : List Instr → State → Tally
  | [], _ => { kA := 0, kB := 0, ovs := 0 }
  | i :: is, s =>
    match exec i s with
    | .next t =>
      { kA := (tallyOf i s).kA + (tally is t).kA
        kB := (tallyOf i s).kB + (tally is t).kB
        ovs := (tallyOf i s).ovs + (tally is t).ovs }
    | .fault _ => tallyOf i s
    | .refused _ => tallyOf i s

/-- The range invariant of R108: while `up` the lag is below `T`, else it is in `1..T`. -/
abbrev Regs.InRange (T : Word16) (r : Regs) : Prop :=
  (r.up = true → r.ds.toNat + 1 ≤ T.toNat) ∧
  (r.up = false → 1 ≤ r.ds.toNat ∧ r.ds.toNat ≤ T.toNat)

/-- No generator state is zero (R24). -/
abbrev Regs.NonZero (r : Regs) : Prop := r.A ≠ 0#32 ∧ r.B ≠ 0#32

/-- B is `ds` steps ahead of A (R109). -/
abbrev Regs.Lagged (r : Regs) : Prop := r.B = step32^[r.ds.toNat] r.A

/-- The machine's safety invariant: after the first RESET the lag is in range and no generator is zero. -/
abbrev State.Safe (s : State) : Prop :=
  s.started = true → s.regs.InRange s.params.targetDroppedSamples ∧ s.regs.NonZero

/-- The lag invariant of R109 with the range it needs. -/
abbrev State.LagSafe (s : State) : Prop :=
  s.started = true → s.regs.InRange s.params.targetDroppedSamples ∧ s.regs.Lagged

/-- A state that some finite sequence of commands reaches from the state right after RESET of the instance
with parameters `p`. -/
def Reachable (p : Params) (s : State) : Prop :=
  ∃ is, runCommands is (State.resetOf p) = .next s

end Sys2Proof.Machine
end

