-- ==== Sys2Proof/Certificates/Slice0/Obligations.lean ====
section
/-! DEFINITION. The statements about the machine, one for each rule or whole-machine sentence of spec/ that says
what a command or the machine does. Each docstring names the rule. Nothing is proved here. -/

open Sys2Proof Sys2Proof.Machine Sys2Proof.Assembler

/-! ## Command words, ports and steps -/

/-- One written-out word of each command decodes to that command (30_encoding.md R63). -/
def Obligations.SampleWordsDecode : Prop :=
  decode 0b0000_1010101111001101#20 = .nop ∧ decode 0b0001_0000000000000000#20 = .tick ∧
  decode 0b0010_0000000000000000#20 = .resync ∧ decode 0b0011_1111111111111111#20 = .resyncTick ∧
  decode 0b0100_0001001000110100#20 = .setinc 0x1234#16 ∧
  decode 0b0101_1000000000000001#20 = .setincTick 0x8001#16 ∧
  decode 0b0110_0001000100010001#20 = .setincResync 0x1111#16 ∧
  decode 0b0111_1111111111000000#20 = .setincResyncTick 0xFFC0#16 ∧
  decode 0b1111_0001001000110100#20 = .reset

/-- R63: every word decodes to exactly one of the nine commands, the one whose row it matches, `rst` first. -/
def Obligations.WordMatchesExactlyItsRow : Prop :=
  (∀ v : Word16, opcodeTable = [Instr.nop, .tick, .resync, .resyncTick, .setinc v, .setincTick v, .setincResync v,
    .setincResyncTick v, .reset].map opcodeRow) ∧
  opcodeTable =
    [⟨0x00000#20, 0xF0000#20⟩, ⟨0x10000#20, 0xF0000#20⟩, ⟨0x20000#20, 0xF0000#20⟩,
     ⟨0x30000#20, 0xF0000#20⟩, ⟨0x40000#20, 0xF0000#20⟩, ⟨0x50000#20, 0xF0000#20⟩,
     ⟨0x60000#20, 0xF0000#20⟩, ⟨0x70000#20, 0xF0000#20⟩, ⟨0x80000#20, 0x80000#20⟩] ∧
  (∀ w : CommandWord, w.getLsbD 19 = true → decode w = .reset) ∧
  ∀ w : CommandWord, opcodeRow (decode w) ∈ opcodeTable ∧
    ∀ row ∈ opcodeTable, (w &&& row.mask = row.bits ↔ row = opcodeRow (decode w))

/-- Decode and encode agree on every command, with every operand (R61, R63, R65). -/
def Obligations.DecodeOfEncode : Prop :=
  ∀ i : Instr, decode (encode i) = i

/-- R64: bits marked x are ignored, and no word makes the block stop. -/
def Obligations.IgnoredBitsHaveNoEffect : Prop :=
  (∀ v w : CommandWord, v.getLsbD 19 = true → w.getLsbD 19 = true → decode v = decode w) ∧
  (∀ v w : CommandWord, v.getLsbD 19 = false → v.getLsbD 18 = false →
    (∀ k, 16 ≤ k → k < 20 → v.getLsbD k = w.getLsbD k) → decode v = decode w) ∧
  (∀ (w : CommandWord) (s : State), s.Running →
    ∃ t, exec (decode w) s = .next t ∧ t.Running)

/-- R61: the fields of the command word, each port at its bits, and no port value lost. -/
def Obligations.PortsNameTheWord : Prop :=
  (∀ p : Inputs,
    p.commandWord.getLsbD 19 = p.rst ∧ p.commandWord.getLsbD 18 = p.inc_we ∧
    p.commandWord.getLsbD 17 = p.resync ∧ p.commandWord.getLsbD 16 = p.tick ∧
    (∀ k < 16, p.commandWord.getLsbD k = p.inc_wdata.getLsbD k) ∧
    Inputs.ofCommandWord p.commandWord = p) ∧
  (∀ w : CommandWord, (Inputs.ofCommandWord w).commandWord = w)

/-- A step is one rising edge: it runs the command that the sampled ports name, at the state with that sample
used up (R60, R120); where no sample is listed the ports carry the free value of log entry 3. -/
def Obligations.StepRunsTheSampledCommand : Prop :=
  (∀ (s : State) (p : Inputs) (rest : List Inputs), s.inputs = p :: rest →
    step s = exec (decode p.commandWord) { s with inputs := rest }) ∧
  (∀ s : State, s.inputs = [] →
    step s = exec (decode (Config.undrivenInputs s.draws).commandWord) { s with draws := s.draws + 1 })

/-- A word driven on the ports for the next edge is the command the next step runs, and decoding a number
agrees with decoding its word. The choice of what a too long number is, is log entry 9. -/
def Obligations.FetchWordRunsNext : Prop :=
  (∀ (s : State) (nbits w : Nat) (i : Instr), decodeTableWord nbits w = some i →
    step (s.withFetchWord nbits w) = exec i { s with inputs := s.inputs.drop 1 }) ∧
  (∀ (nbits w : Nat), 20 ≤ nbits → w < 2 ^ 20 → decodeTableWord nbits w = some (decode (BitVec.ofNat 20 w)))

/-- Command words presented on successive edges run in the order of the edges, each seeing every effect of
the one before (R46, R120; 92_eei_decisions.md D20). -/
def Obligations.PresentedWordsRunInOrder : Prop :=
  ∀ (words : List CommandWord) (s : State),
    runSteps words.length (present words s) =
      runCommands (words.map decode) { s with inputs := s.inputs.drop words.length }

/-- R166 (and R124 corner case (d) for `resync`): a strobe held high for some edges acts at each of them, whatever
`inc_wdata` carries at each; `data` is what it carries, one value an edge. -/
def Obligations.HeldStrobeActsAtEachEdge : Prop :=
  ∀ (data : List Word16) (s : State) (rest : List Inputs),
    (s.inputs = data.map (fun d => ⟨false, false, false, true, d⟩) ++ rest →
      runSteps data.length s = runCommands (List.replicate data.length .tick) { s with inputs := rest }) ∧
    (s.inputs = data.map (fun d => ⟨false, false, true, false, d⟩) ++ rest →
      runSteps data.length s = runCommands (List.replicate data.length .resync) { s with inputs := rest })

/-! ## The nine commands (44_commands.md) -/

/-- R121. -/
def Obligations.NopChangesNothing : Prop :=
  (∀ w : CommandWord, w &&& 0xF0000#20 = 0x00000#20 → decode w = .nop) ∧
  ∀ s : State, s.Running → exec .nop s = .next s

/-- R122: the increment takes all 16 bits of the operand at once, nothing else changes; writing the value held
changes nothing, and after a write of 0 a TICK does not overflow. -/
def Obligations.SetincWritesOnlyTheIncrement : Prop :=
  (∀ w : CommandWord, w &&& 0xF0000#20 = 0x40000#20 → decode w = .setinc (w.setWidth 16)) ∧
  (∀ (s : State) (v : Word16), s.Running →
    exec (.setinc v) s = .next { s with regs := { s.regs with inc := v } }) ∧
  (∀ s : State, s.Running → exec (.setinc s.regs.inc) s = .next s) ∧
  (∀ s : State, s.Running → ∃ t, exec (.setinc 0#16) s = .next t ∧ t.regs.ov = false)

/-- R123: the TICK transition, the rule's pseudocode written out. -/
def Obligations.TickTransition : Prop :=
  (∀ w : CommandWord, w &&& 0xF0000#20 = 0x10000#20 → decode w = .tick) ∧
  ∀ s : State, s.Running →
    let r := s.regs
    let T := s.params.targetDroppedSamples
    let accNew := BitVec.ofNat 16 (r.acc.toNat + r.inc.toNat)
    let ov : Bool := decide (accNew.toNat < r.acc.toNat)
    let enA : Bool := if r.up then !ov else true
    let enB : Bool := if r.up then true else !ov
    let dsNew := if ov && r.up then BitVec.ofNat 16 (r.ds.toNat + 1)
      else if ov && !r.up then BitVec.ofNat 16 (r.ds.toNat + 65535) else r.ds
    let upNew := if ov && r.up then (if dsNew = T then false else true)
      else if ov && !r.up then (if dsNew = 0#16 then true else false) else r.up
    let aNew := if enA then step32 r.A else r.A
    let bNew := if enB then step32 r.B else r.B
    exec .tick s = .next { s with regs :=
      { A := aNew, B := bNew, acc := accNew, inc := r.inc, ds := dsNew, up := upNew,
        duty_a := BitVec.ofNat 8 aNew.toNat, duty_b := BitVec.ofNat 8 bNew.toNat } }

/-- R124: A takes B's state, the lag counter 0, the direction up; nothing else changes; it changes nothing where
that already holds; and held high for several edges it acts at each, whatever `inc_wdata` carries at each (that the samples of coming edges stand
in a list is log entry 2). -/
def Obligations.ResyncCopiesBIntoA : Prop :=
  (∀ w : CommandWord, w &&& 0xF0000#20 = 0x20000#20 → decode w = .resync) ∧
  (∀ s : State, s.Running →
    exec .resync s = .next { s with regs := { s.regs with A := s.regs.B, ds := 0#16, up := true } }) ∧
  (∀ s : State, s.Running → s.regs.A = s.regs.B → s.regs.ds = 0#16 → s.regs.up = true →
    exec .resync s = .next s) ∧
  (∀ (data : List Word16) (s : State) (rest : List Inputs),
    s.inputs = data.map (fun d => ⟨false, false, true, false, d⟩) ++ rest →
      runSteps data.length s = runCommands (List.replicate data.length .resync) { s with inputs := rest })

/-- R125: the tick starts from the resynchronised state, so its result needs no case on the direction. That it flips
only when it overflows and `T = 1` is an inference the spec marks as its own (from R104 and R124). -/
def Obligations.ResyncTickTicksFromEqualStates : Prop :=
  (∀ w : CommandWord, w &&& 0xF0000#20 = 0x30000#20 → decode w = .resyncTick) ∧
  (∀ s : State, s.Running → exec .resyncTick s =
    .next { s with regs := tickRegs s.params.targetDroppedSamples (resyncRegs s.regs) }) ∧
  (∀ s : State, s.Running → s.regs.acc.toNat + s.regs.inc.toNat < 65536 →
    exec .resyncTick s = .next { s with regs :=
      { A := step32 s.regs.B, B := step32 s.regs.B, acc := s.regs.acc + s.regs.inc, inc := s.regs.inc,
        ds := 0#16, up := true,
        duty_a := (step32 s.regs.B).setWidth 8, duty_b := (step32 s.regs.B).setWidth 8 } }) ∧
  (∀ s : State, s.Running → 65536 ≤ s.regs.acc.toNat + s.regs.inc.toNat →
    exec .resyncTick s = .next { s with regs :=
      { A := s.regs.B, B := step32 s.regs.B, acc := s.regs.acc + s.regs.inc, inc := s.regs.inc,
        ds := 1#16, up := decide (s.params.targetDroppedSamples ≠ 1#16),
        duty_a := s.regs.B.setWidth 8, duty_b := (step32 s.regs.B).setWidth 8 } })

/-- R126: the tick adds the new increment; with a zero increment it ticks without overflow. -/
def Obligations.SetincTickUsesTheNewIncrement : Prop :=
  (∀ w : CommandWord, w &&& 0xF0000#20 = 0x50000#20 → decode w = .setincTick (w.setWidth 16)) ∧
  (∀ (s : State) (v : Word16), s.Running → exec (.setincTick v) s =
    .next { s with regs := tickRegs s.params.targetDroppedSamples { s.regs with inc := v } }) ∧
  (∀ s : State, s.Running → exec (.setincTick 0#16) s =
    .next { s with regs := { s.regs with
      A := step32 s.regs.A, B := step32 s.regs.B, inc := 0#16,
      duty_a := (step32 s.regs.A).setWidth 8, duty_b := (step32 s.regs.B).setWidth 8 } })

/-- R127: both writes at one edge; the outputs and the accumulator are unchanged. That either order of the two gives
the same result is an inference the spec marks as its own (from R122 and R124). -/
def Obligations.SetincResyncWritesBoth : Prop :=
  (∀ w : CommandWord, w &&& 0xF0000#20 = 0x60000#20 → decode w = .setincResync (w.setWidth 16)) ∧
  (∀ (s : State) (v : Word16), s.Running → exec (.setincResync v) s =
    .next { s with regs := { s.regs with A := s.regs.B, inc := v, ds := 0#16, up := true } }) ∧
  (∀ (s : State) (v : Word16), s.Running →
    exec (.setincResync v) s = runCommands [.resync, .setinc v] s ∧
    exec (.setincResync v) s = runCommands [.setinc v, .resync] s)

/-- R128: SETINC, then RESYNC, then TICK, at one edge. -/
def Obligations.SetincResyncTickAppliesAllThree : Prop :=
  (∀ w : CommandWord, w &&& 0xF0000#20 = 0x70000#20 → decode w = .setincResyncTick (w.setWidth 16)) ∧
  (∀ (s : State) (v : Word16), s.Running → exec (.setincResyncTick v) s =
    .next
      { s with regs := tickRegs s.params.targetDroppedSamples (resyncRegs (setIncRegs v s.regs)) }) ∧
  (∀ (s : State) (v : Word16), s.Running → s.regs.acc.toNat + v.toNat < 65536 →
    exec (.setincResyncTick v) s = .next { s with regs :=
      { A := step32 s.regs.B, B := step32 s.regs.B, acc := s.regs.acc + v, inc := v, ds := 0#16, up := true,
        duty_a := (step32 s.regs.B).setWidth 8, duty_b := (step32 s.regs.B).setWidth 8 } }) ∧
  (∀ (s : State) (v : Word16), s.Running → 65536 ≤ s.regs.acc.toNat + v.toNat →
    exec (.setincResyncTick v) s = .next { s with regs :=
      { A := s.regs.B, B := step32 s.regs.B, acc := s.regs.acc + v, inc := v,
        ds := 1#16, up := decide (s.params.targetDroppedSamples ≠ 1#16),
        duty_a := s.regs.B.setWidth 8, duty_b := (step32 s.regs.B).setWidth 8 } })

/-- R129, R160: RESET loads every field, overrides every other bit of the word, and acts in every state of an
instance, before the first RESET too. -/
def Obligations.ResetLoadsEveryField : Prop :=
  (∀ w : CommandWord, w &&& 0x80000#20 = 0x80000#20 → decode w = .reset) ∧
  (∀ s : State, s.params.legal = true → exec .reset s =
    .next
      { s with
        started := true
        regs :=
          { A := s.params.seedA, B := s.params.seedB, acc := s.params.phaseAccInit,
            inc := s.params.phaseIncInit, ds := 0x0000#16, up := true,
            duty_a := 0x00#8, duty_b := 0x00#8 } }) ∧
  (∀ (n : Nat) (s : State), s.params.legal = true →
    runCommands (List.replicate (n + 1) .reset) s = exec .reset s)

/-- R160's table with the defaults of R7: the machine right after reset. -/
def Obligations.ResetStateHoldsTheDefaults : Prop :=
  State.reset.started = true ∧
  State.reset.regs.A = 0x00000001#32 ∧ State.reset.regs.B = 0x00000001#32 ∧
  State.reset.regs.acc = 0x0001#16 ∧ State.reset.regs.inc = 0xFFC0#16 ∧
  State.reset.regs.ds = 0x0000#16 ∧ State.reset.regs.up = true ∧
  State.reset.regs.duty_a = 0x00#8 ∧ State.reset.regs.duty_b = 0x00#8 ∧
  State.reset.params.targetDroppedSamples = 80#16 ∧
  exec .reset State.reset = .next State.reset

/-- R47: at one edge without `rst` the parts are applied in the order SETINC, RESYNC, TICK, each seeing the
result before it; `rst` overrides all three. That SETINC and RESYNC commute is an inference the spec marks as its own
(from R122 and R124). -/
def Obligations.SameEdgeOrder : Prop :=
  (∀ (s : State) (p : Inputs), s.Running → p.rst = false →
    let s1 := if p.inc_we = true then setIncRegs p.inc_wdata s.regs else s.regs
    let s2 := if p.resync = true then resyncRegs s1 else s1
    let s' := if p.tick = true then tickRegs s.params.targetDroppedSamples s2 else s2
    exec (decode p.commandWord) s = .next { s with regs := s' }) ∧
  (∀ (r : Regs) (v : Word16), resyncRegs (setIncRegs v r) = setIncRegs v (resyncRegs r)) ∧
  (∀ (s : State) (p : Inputs), p.rst = true → exec (decode p.commandWord) s = exec .reset s)

/-- A combined command has the effect of its parts on successive edges, in the order of R47. -/
def Obligations.CombinedCommandIsItsPartsInOrder : Prop :=
  ∀ (s : State) (v : Word16), s.Running →
    exec .resyncTick s = runCommands [.resync, .tick] s ∧
    exec (.setincTick v) s = runCommands [.setinc v, .tick] s ∧
    exec (.setincResync v) s = runCommands [.setinc v, .resync] s ∧
    exec (.setincResyncTick v) s = runCommands [.setinc v, .resync, .tick] s

/-- R130. -/
def Obligations.ResyncIsIdempotent : Prop :=
  (∀ r : Regs, resyncRegs (resyncRegs r) = resyncRegs r) ∧
  (∀ (n : Nat) (s : State), s.Running →
    runCommands (List.replicate (n + 1) .resync) s = exec .resync s)

/-- R131. -/
def Obligations.SetincLastWriteWins : Prop :=
  (∀ (r : Regs) (v1 v2 : Word16), setIncRegs v2 (setIncRegs v1 r) = setIncRegs v2 r) ∧
  (∀ (s : State) (vs : List Word16) (v : Word16), s.Running →
    runCommands (vs.map .setinc ++ [.setinc v]) s = exec (.setinc v) s)

/-! ## The noise generators (40_noise_generator.md) -/

/-- The step as a formula and bit by bit: what R80's pseudocode gives with the set bits of `TAP` that R6 names
(31, 21, 1 and 0). One sentence of R80 says 20 where these give 21: log entry 14. -/
def Obligations.StepBitByBit : Prop :=
  ∀ x : Word32,
    step32 x = (x >>> 1) ^^^ (if x.getLsbD 0 then 0x80200003#32 else 0x00000000#32) ∧
    (step32 x).getLsbD 31 = x.getLsbD 0 ∧
    (∀ k, k = 21 ∨ k = 1 ∨ k = 0 → (step32 x).getLsbD k = (x.getLsbD (k + 1) ^^ x.getLsbD 0)) ∧
    (∀ k, k < 31 → k ≠ 21 → k ≠ 1 → k ≠ 0 → (step32 x).getLsbD k = x.getLsbD (k + 1))

/-- The sentence of R80 that disagrees with R80's own pseudocode: bit 20 of the result as bit 21 of `x` XORed with
`x[0]`. Expected to fail (log entry 14). -/
def Obligations.StepXorsBitTwenty : Prop :=
  ∀ x : Word32, ∀ k, k = 20 ∨ k = 1 ∨ k = 0 →
    (step32 x).getLsbD k = (x.getLsbD (k + 1) ^^ x.getLsbD 0)

/-- R82: the step is a bijection and keeps every non-zero value non-zero. -/
def Obligations.StepIsBijective : Prop :=
  Function.Bijective step32 ∧ (∀ x : Word32, x ≠ 0#32 → step32 x ≠ 0#32)

/-- R83: the inverse of the step. -/
def Obligations.UnstepInvertsStep : Prop :=
  ∀ x : Word32,
    (unstep32 x = if x.getLsbD 31 then ((x ^^^ 0x80200003#32) <<< 1) ||| 0x00000001#32 else x <<< 1) ∧
    unstep32 (step32 x) = x ∧ step32 (unstep32 x) = x

/-- R85: from any non-zero word the sequence returns for the first time after exactly 2^32 - 1 steps, and
visits every non-zero word once in a period. -/
def Obligations.GeneratorPeriodIsMaximal : Prop :=
  ∀ x : Word32, x ≠ 0#32 →
    step32^[2 ^ 32 - 1] x = x ∧
    (∀ k, 0 < k → k < 2 ^ 32 - 1 → step32^[k] x ≠ x) ∧
    (∀ y : Word32, y ≠ 0#32 → ∃! k, k < 2 ^ 32 - 1 ∧ step32^[k] x = y)

/-- R86: in a TICK each generator is stepped once or not at all, by its own enable; no command without a RESYNC
part lets B's state reach A, and none lets A's state reach B. -/
def Obligations.GeneratorsStepIndependently : Prop :=
  (∀ s : State, s.Running →
    ∃ t, exec .tick s = .next t ∧
      t.regs.A = (if enableA s.regs.up s.regs.ov then step32 s.regs.A else s.regs.A) ∧
      t.regs.B = (if enableB s.regs.up s.regs.ov then step32 s.regs.B else s.regs.B)) ∧
  (∀ (i : Instr) (s t s' t' : State) (b : Word32), s.Running → i.hasResync = false →
    t = { s with regs := { s.regs with B := b } } → exec i s = .next s' → exec i t = .next t' →
    t'.regs.A = s'.regs.A ∧ t'.regs.duty_a = s'.regs.duty_a ∧ t'.regs.acc = s'.regs.acc ∧
    t'.regs.ds = s'.regs.ds ∧ t'.regs.up = s'.regs.up) ∧
  (∀ (i : Instr) (s t s' t' : State) (a : Word32), s.Running →
    t = { s with regs := { s.regs with A := a } } → exec i s = .next s' → exec i t = .next t' →
    t'.regs.B = s'.regs.B ∧ t'.regs.duty_b = s'.regs.duty_b ∧ t'.regs.acc = s'.regs.acc ∧
    t'.regs.ds = s'.regs.ds ∧ t'.regs.up = s'.regs.up)

/-- R87 with R81: the corner cases of the step. -/
def Obligations.StepCornerCases : Prop :=
  (∀ x : Word32, x.getLsbD 0 = false → step32 x = x >>> 1 ∧ (step32 x).getLsbD 31 = false) ∧
  (∀ x : Word32, x.getLsbD 0 = true → (step32 x).getLsbD 31 = true) ∧
  step32 0x80000000#32 = 0x40000000#32 ∧ step32 0x00000003#32 = 0x80200002#32 ∧
  step32 0xFFFFFFFF#32 = 0xFFDFFFFC#32 ∧ step32 0x00000000#32 = 0x00000000#32 ∧
  step32 0x80200003#32 = 0xC0300002#32

/-! ## The phase accumulator (41_phase_accumulator.md) -/

/-- R90, R91: every command with a TICK adds to the accumulator, modulo 2^16, the increment the TICK reads (the one
the command leaves, R47), and overflows exactly when the new value is less than the old; no other command but RESET
writes the accumulator. -/
def Obligations.AccumulatorAddsTheIncrementTickReads : Prop :=
  (∀ (i : Instr) (s : State), s.Running → i.hasTick = true →
    ∃ t, exec i s = .next t ∧
      t.regs.acc.toNat = (s.regs.acc.toNat + t.regs.inc.toNat) % 65536 ∧
      t.regs.inc = i.setincPart.getD s.regs.inc ∧
      (tallyOf i s).ovs = if t.regs.acc.toNat < s.regs.acc.toNat then 1 else 0) ∧
  (∀ (i : Instr) (s : State), s.Running → i.hasTick = false → i.isReset = false →
    ∃ t, exec i s = .next t ∧ t.regs.acc = s.regs.acc ∧ (tallyOf i s).ovs = 0)

/-- R92, with R90 and R91: the sum wraps modulo 2^16, and `ov` is the carry out of the 16-bit add. -/
def Obligations.OverflowIsTheCarry : Prop :=
  ∀ a i : Word16,
    (accNext a i).toNat = (a.toNat + i.toNat) % 65536 ∧
    (overflowOf a i = true ↔ (accNext a i).toNat < a.toNat) ∧
    (overflowOf a i = true ↔ 65536 ≤ a.toNat + i.toNat) ∧
    overflowOf a i = (a.setWidth 17 + i.setWidth 17).getLsbD 16

/-- R93: the corner cases of the increment. -/
def Obligations.IncrementCornerCases : Prop :=
  (∀ a : Word16, accNext a 0#16 = a ∧ overflowOf a 0#16 = false) ∧
  (∀ a : Word16, accNext a 0xFFFF#16 = a - 1#16 ∧ (overflowOf a 0xFFFF#16 = true ↔ a ≠ 0#16)) ∧
  (∀ s : State, s.Running → s.regs.inc = 0xFFFF#16 →
    (tally (List.replicate 65536 .tick) s).ovs = 65535) ∧
  (∀ a : Word16, (overflowOf a 0x8000#16 = true ↔ 0x8000 ≤ a.toNat) ∧
    overflowOf (accNext a 0x8000#16) 0x8000#16 = !overflowOf a 0x8000#16)

/-- R94: `N` consecutive TICKs overflow exactly `(a0 + N * I) / 2^16` times and leave the accumulator at
`(a0 + N * I) mod 2^16`. -/
def Obligations.OverflowCountIsExact : Prop :=
  ∀ (N : Nat) (s : State), s.Running →
    (tally (List.replicate N .tick) s).ovs = (s.regs.acc.toNat + N * s.regs.inc.toNat) / 2 ^ 16 ∧
    ∃ t, runCommands (List.replicate N .tick) s = .next t ∧
      t.regs.acc.toNat = (s.regs.acc.toNat + N * s.regs.inc.toNat) % 2 ^ 16 ∧ t.regs.inc = s.regs.inc

/-- R95: over 2^16 consecutive TICKs there are exactly `I` overflows, and a larger increment never gives fewer
overflows from the same start. -/
def Obligations.OverflowRateFollowsIncrement : Prop :=
  (∀ s : State, s.Running → (tally (List.replicate 65536 .tick) s).ovs = s.regs.inc.toNat) ∧
  (∀ (N : Nat) (s : State) (v : Word16), s.Running → s.regs.inc.toNat ≤ v.toNat →
    (tally (List.replicate N .tick) s).ovs ≤
      (tally (List.replicate N .tick) { s with regs := { s.regs with inc := v } }).ovs)

/-! ## The flange FSM (42_flange_fsm.md) -/

/-- R101: the step enables of a TICK and what they do to the two generators. That an overflow tick steps exactly one
generator, any other tick both, is an inference the spec marks as its own (from R101's pseudocode). -/
def Obligations.StepEnables : Prop :=
  ∀ s : State, s.Running → ∃ t, exec .tick s = .next t ∧
    (s.regs.up = true →
      enableA s.regs.up s.regs.ov = !s.regs.ov ∧ enableB s.regs.up s.regs.ov = true ∧
      t.regs.A = (if s.regs.ov then s.regs.A else step32 s.regs.A) ∧ t.regs.B = step32 s.regs.B) ∧
    (s.regs.up = false →
      enableA s.regs.up s.regs.ov = true ∧ enableB s.regs.up s.regs.ov = !s.regs.ov ∧
      t.regs.A = step32 s.regs.A ∧ t.regs.B = (if s.regs.ov then s.regs.B else step32 s.regs.B)) ∧
    (s.regs.ov = true → (tallyOf .tick s).kA + (tallyOf .tick s).kB = 1) ∧
    (s.regs.ov = false → (tallyOf .tick s).kA = 1 ∧ (tallyOf .tick s).kB = 1)

/-- R102, R103, R105: what a TICK does to the lag counter, and that without overflow it leaves the direction. -/
def Obligations.LagCounterMovesOnOverflow : Prop :=
  ∀ s : State, s.Running → ∃ t, exec .tick s = .next t ∧
    (s.regs.up = true → s.regs.ov = true → t.regs.ds.toNat = (s.regs.ds.toNat + 1) % 65536) ∧
    (s.regs.up = false → s.regs.ov = true → t.regs.ds.toNat = (s.regs.ds.toNat + 65535) % 65536) ∧
    (s.regs.ov = false → t.regs.ds = s.regs.ds ∧ t.regs.up = s.regs.up)

/-- R104: the flip test. That in the range of R108 it agrees with an ordering test made on every TICK is an inference
the spec marks as its own (from R108). -/
def Obligations.FlipTestIsExact : Prop :=
  (∀ s : State, s.Running → ∃ t, exec .tick s = .next t ∧
    (s.regs.ov = true → s.regs.up = true →
      (t.regs.up = false ↔ t.regs.ds = s.params.targetDroppedSamples)) ∧
    (s.regs.ov = true → s.regs.up = false → (t.regs.up = true ↔ t.regs.ds = 0#16)) ∧
    (s.regs.ov = false → t.regs.up = s.regs.up)) ∧
  (∀ s t : State, s.Running → s.regs.InRange s.params.targetDroppedSamples → exec .tick s = .next t →
    t.regs.up = if s.regs.up then decide (t.regs.ds.toNat < s.params.targetDroppedSamples.toNat)
                else decide (t.regs.ds.toNat = 0))

/-- R106: the flip TICK itself still uses the old direction; the next TICK's free-running channel is the one
that was held back. -/
def Obligations.FlipActsFromTheNextTick : Prop :=
  ∀ s t : State, s.Running → exec .tick s = .next t → t.regs.up ≠ s.regs.up →
    ∃ u, exec .tick t = .next u ∧
      (s.regs.up = true →
        t.regs.A = s.regs.A ∧ t.regs.B = step32 s.regs.B ∧ u.regs.A = step32 t.regs.A) ∧
      (s.regs.up = false →
        t.regs.B = s.regs.B ∧ t.regs.A = step32 s.regs.A ∧ u.regs.B = step32 t.regs.B)

/-- R107: the corner cases of the FSM, unreachable states among them. -/
def Obligations.FsmCornerCases : Prop :=
  (∀ s : State, s.Running → s.params.targetDroppedSamples = 1#16 → s.regs.up = true → s.regs.ds = 0#16 →
    s.regs.ov = true → ∃ t, exec .tick s = .next t ∧ t.regs.ds = 1#16 ∧ t.regs.up = false ∧
      (t.regs.ov = true → ∃ u, exec .tick t = .next u ∧ u.regs.ds = 0#16 ∧ u.regs.up = true)) ∧
  (∀ s : State, s.Running → s.regs.up = true → s.regs.ds = s.params.targetDroppedSamples →
    s.regs.ov = true → ∃ t, exec .tick s = .next t ∧
      t.regs.ds = s.params.targetDroppedSamples + 1#16 ∧ t.regs.up = true) ∧
  (∀ s : State, s.Running → s.regs.up = false → s.regs.ds = 0#16 → s.regs.ov = true →
    ∃ t, exec .tick s = .next t ∧ t.regs.ds = 0xFFFF#16 ∧ t.regs.up = false) ∧
  (∀ s : State, s.Running → s.regs.up = true → s.regs.ds = 0xFFFF#16 → s.regs.ov = true →
    ∃ t, exec .tick s = .next t ∧ t.regs.ds = 0#16 ∧ t.regs.up = true) ∧
  (∀ (n : Nat) (s : State), s.Running → s.regs.inc = 0#16 →
    ∃ t, runCommands (List.replicate n .tick) s = .next t ∧ t.regs.ds = s.regs.ds ∧
      t.regs.up = s.regs.up ∧ t.regs.A = step32^[n] s.regs.A ∧ t.regs.B = step32^[n] s.regs.B)

/-- Every step keeps the safety invariant: after the first RESET the lag is in the range of R108 and no generator
is zero (R24). -/
def Obligations.StepKeepsSafe : Prop :=
  ∀ s t : State, s.Safe → step s = .next t → t.Safe

/-- The machine right after reset has the safety invariant, and so has every instance's reset state. -/
def Obligations.ResetIsSafe : Prop :=
  State.reset.Safe ∧ ∀ p : Params, p.legal = true → (State.resetOf p).Safe

/-- R108: in every state that any command sequence reaches from reset. -/
def Obligations.LagStaysInRange : Prop :=
  ∀ (p : Params) (s : State), p.legal = true → Reachable p s →
    (s.regs.up = true → s.regs.ds.toNat ≤ p.targetDroppedSamples.toNat - 1) ∧
    (s.regs.up = false → 1 ≤ s.regs.ds.toNat ∧ s.regs.ds.toNat ≤ p.targetDroppedSamples.toNat) ∧
    s.regs.ds.toNat ≤ p.targetDroppedSamples.toNat

/-- R24: neither generator state is zero in any state reachable from reset. -/
def Obligations.GeneratorsNeverZero : Prop :=
  ∀ (p : Params) (s : State), p.legal = true → Reachable p s → s.regs.A ≠ 0#32 ∧ s.regs.B ≠ 0#32

/-- Every step keeps the lag invariant of R109 in an instance with equal seeds, and every step but a RESET
keeps it in any instance. -/
def Obligations.StepKeepsLag : Prop :=
  (∀ s t : State, s.params.seedA = s.params.seedB → s.LagSafe → step s = .next t → t.LagSafe) ∧
  (∀ (i : Instr) (s t : State), i ≠ .reset → s.LagSafe → exec i s = .next t → t.LagSafe)

/-- R109: from a sync point (what RESET and RESYNC leave: lag 0, direction up) on, along any commands that hold
no further sync point, the lag counter is the number of B's steps less the number of A's; and where the two
states were equal at the sync point, B is that many steps ahead of A. -/
def Obligations.LagCountsTheDrift : Prop :=
  ∀ (is : List Instr) (s : State), s.Running → s.regs.ds = 0#16 → s.regs.up = true →
    (∀ i ∈ is, i.isReset = false ∧ i.hasResync = false) →
    ∃ t, runCommands is s = .next t ∧
      (tally is s).kB = (tally is s).kA + t.regs.ds.toNat ∧
      t.regs.A = step32^[(tally is s).kA] s.regs.A ∧ t.regs.B = step32^[(tally is s).kB] s.regs.B ∧
      (s.regs.A = s.regs.B →
        t.regs.B = step32^[t.regs.ds.toNat] t.regs.A ∧ t.regs.A = unstep32^[t.regs.ds.toNat] t.regs.B)

/-- R110: from a sync point on, the lag follows the number of overflow ticks up to `T` and back down to 0, each
half-sweep exactly `T` overflow ticks long; where the states were equal at the sync point they are equal again
at every return to lag 0. -/
def Obligations.SweepTakesExactlyTOverflows : Prop :=
  ∀ (is : List Instr) (s : State), s.Running → s.regs.ds = 0#16 → s.regs.up = true →
    (∀ i ∈ is, i.isReset = false ∧ i.hasResync = false) →
    let T := s.params.targetDroppedSamples.toNat
    let m := (tally is s).ovs % (2 * T)
    ∃ t, runCommands is s = .next t ∧
      (m < T → t.regs.up = true ∧ t.regs.ds.toNat = m) ∧
      (T ≤ m → t.regs.up = false ∧ t.regs.ds.toNat = 2 * T - m) ∧
      (s.regs.A = s.regs.B → t.regs.ds = 0#16 → t.regs.A = t.regs.B)

/-! ## Outputs (43_pwm_duty_mux.md) -/

/-- R115, R117: every command with a TICK publishes the low byte of each post-step state, A on `duty_a`, B on
`duty_b`. -/
def Obligations.TickPublishesLowBytes : Prop :=
  ∀ (i : Instr) (s : State), s.Running → i.hasTick = true →
    ∃ t, exec i s = .next t ∧
      (∀ k < 8, t.regs.duty_a.getLsbD k = t.regs.A.getLsbD k ∧ t.regs.duty_b.getLsbD k = t.regs.B.getLsbD k) ∧
      outDutyA t = some (BitVec.ofNat 8 (t.regs.A.toNat % 256)) ∧
      outDutyB t = some (BitVec.ofNat 8 (t.regs.B.toNat % 256))

/-- R116, R118: in a cycle without TICK and without RESET the outputs hold their values; RESET shows 0x00. -/
def Obligations.OutputsHoldWithoutTick : Prop :=
  (∀ (i : Instr) (s t : State), s.Running → i.hasTick = false → i.isReset = false → exec i s = .next t →
    outDutyA t = some s.regs.duty_a ∧ outDutyB t = some s.regs.duty_b ∧
    t.regs.duty_a = s.regs.duty_a ∧ t.regs.duty_b = s.regs.duty_b) ∧
  (∀ s t : State, exec .reset s = .next t → outDutyA t = some 0x00#8 ∧ outDutyB t = some 0x00#8)

/-! ## The whole machine -/

/-- R32: who writes which field. A field that a command changes after the first RESET is one its agents may
write. The instance's parameters (R30) no command writes; nor does any write `started`, `inputs` or `draws` there, which
are the model's own fields (log entries 2, 3 and 4). -/
def Obligations.OnlyTheirAgentsWriteFields : Prop :=
  ∀ (i : Instr) (s t : State), s.Running → exec i s = .next t →
    (t.regs.A ≠ s.regs.A → i.hasTick = true ∨ i.hasResync = true ∨ i.isReset = true) ∧
    (t.regs.B ≠ s.regs.B → i.hasTick = true ∨ i.isReset = true) ∧
    (t.regs.acc ≠ s.regs.acc → i.hasTick = true ∨ i.isReset = true) ∧
    (t.regs.inc ≠ s.regs.inc → i.setincPart = some t.regs.inc ∨ i.isReset = true) ∧
    (t.regs.ds ≠ s.regs.ds → i.hasTick = true ∨ i.hasResync = true ∨ i.isReset = true) ∧
    (t.regs.up ≠ s.regs.up → i.hasTick = true ∨ i.hasResync = true ∨ i.isReset = true) ∧
    (t.regs.duty_a ≠ s.regs.duty_a → i.hasTick = true ∨ i.isReset = true) ∧
    (t.regs.duty_b ≠ s.regs.duty_b → i.hasTick = true ∨ i.isReset = true) ∧
    t.params = s.params ∧ t.started = true ∧ t.inputs = s.inputs ∧ t.draws = s.draws

/-- R140: no command fails in any state of an instance that has been reset; every step of it answers a next state,
whatever the ports carry. -/
def Obligations.InstanceNeverStops : Prop :=
  (∀ (i : Instr) (s : State), s.Running → ∃ t, exec i s = .next t ∧ t.Running) ∧
  (∀ (n : Nat) (s : State), s.Running → ∃ t, runSteps n s = .next t ∧ t.Running)

/-- R30: the parameters are constants of the instance, whatever command runs. -/
def Obligations.ParametersNeverChange : Prop :=
  (∀ (i : Instr) (s t : State), exec i s = .next t → t.params = s.params) ∧
  (∀ (n : Nat) (s t : State), runSteps n s = .next t → t.params = s.params)

/-- R8: a parameter out of the range of R7 is refused at elaboration. That a request is checked as numbers of any size,
and that a step in a state with such parameters is refused under the same name, is log entry 6. -/
def Obligations.IllegalParametersAreRefused : Prop :=
  (∀ (r : ParamRequest) (junk : Regs) (inputs : List Inputs) (draws : Nat),
    (elaborate r junk inputs draws = .refused .illegalParameters ↔
      ¬ (1 ≤ r.seedA ∧ r.seedA ≤ 0xFFFFFFFF ∧ 1 ≤ r.seedB ∧ r.seedB ≤ 0xFFFFFFFF ∧
         1 ≤ r.phaseAccInit ∧ r.phaseAccInit ≤ 0xFFFF ∧ r.phaseIncInit ≤ 0xFFFF ∧
         1 ≤ r.targetDroppedSamples ∧ r.targetDroppedSamples ≤ 65535))) ∧
  (∀ (r : ParamRequest) (junk : Regs) (inputs : List Inputs) (draws : Nat) (s : State),
    elaborate r junk inputs draws = .next s → s.params.legal = true ∧
      s.params.seedA.toNat = r.seedA ∧ s.params.seedB.toNat = r.seedB ∧
      s.params.phaseAccInit.toNat = r.phaseAccInit ∧ s.params.phaseIncInit.toNat = r.phaseIncInit ∧
      s.params.targetDroppedSamples.toNat = r.targetDroppedSamples) ∧
  (∀ s : State, s.params.legal = false → step s = .refused .illegalParameters)

/-- Before the first RESET no output has a value, no command but RESET brings one, and nothing the model is
given for the registers there comes from a rule (R161; the free value is log entry 4). -/
def Obligations.NoValueBeforeTheFirstReset : Prop :=
  (∀ s : State, s.started = false → outDutyA s = none ∧ outDutyB s = none) ∧
  (∀ (i : Instr) (s : State), s.params.legal = true → s.started = false → i ≠ .reset →
    exec i s = .next { s with regs := Config.unspecifiedRegs s.draws i s.regs, draws := s.draws + 1 }) ∧
  (∀ (is : List Instr) (s t : State), s.started = false → (∀ i ∈ is, i ≠ .reset) →
    runCommands is s = .next t → t.started = false ∧ outDutyA t = none ∧ outDutyB t = none)

/-- R162: elaborate with legal parameters, sample `rst = 1` at an edge: whatever the block held and whatever
commands came before, it is then in the reset state of its parameters. -/
def Obligations.BootReachesTheResetState : Prop :=
  ∀ (r : ParamRequest) (junk : Regs) (ins : List Inputs) (p : Inputs) (rest : List Inputs) (draws : Nat)
    (s0 s1 : State),
    elaborate r junk (ins ++ p :: rest) draws = .next s0 → p.rst = true →
    runSteps ins.length s0 = .next s1 →
    step s1 = .next { s1 with started := true, regs := resetRegs r.toParams, inputs := rest }

/-- R153: a run of cycles without a strobe leaves all state unchanged. -/
def Obligations.IdleKeepsAllState : Prop :=
  ∀ (n : Nat) (s : State), s.Running → runCommands (List.replicate n .nop) s = .next s

/-- R33: nothing but the eight registers reaches the outputs of any later edge: two running instances with the
same parameters and the same registers show the same outputs after any commands. -/
def Obligations.NoHiddenStateAtTheOutputs : Prop :=
  ∀ (is : List Instr) (s t : State), s.Running → t.Running → s.params = t.params → s.regs = t.regs →
    ∃ s' t', runCommands is s = .next s' ∧ runCommands is t = .next t' ∧ s'.regs = t'.regs ∧
      outDutyA s' = outDutyA t' ∧ outDutyB s' = outDutyB t'

/-! ## The assembler (30_encoding.md R65, R66) -/

/-- R65, R66: a source line is accepted exactly when it is well formed, an immediate out of range is refused and
never truncated, and an accepted line makes as many commands as it takes cycles. -/
def Obligations.AssemblerAcceptsWellFormedLines : Prop :=
  (∀ l : SourceLine, (∃ is, expandLine l = .ok is) ↔ l.wellFormed = true) ∧
  (∀ (l : SourceLine) (is : List Instr), expandLine l = .ok is → is.length = lineCycles l) ∧
  (∀ (name : CommandName) (imm : Nat), name.takesImm = true → 65535 < imm →
    expandLine (.command name (some imm)) = .error .immediateOutOfRange) ∧
  (∀ n : Nat, expandLine (.tickn n) = .ok (List.replicate n .tick) ∧
    expandLine (.idle n) = .ok (List.replicate n .nop))

/-- R65, R66: what a text writes, form by form. What it assembles to decodes back to the commands it writes (R63); each
mnemonic without an immediate, and each SETINC form with every 16-bit immediate in decimal or in hexadecimal of 1 to 4
digits, is its command; a pseudo-command is its expansion; an empty or comment-only line is none; a comment changes
nothing; and the lines of a text are read one after another. That a letter digit may stand in either case, that leading
zeros are allowed and that the line feed separates lines are log entry 10. -/
def Obligations.AssembledWordsDecodeToTheText : Prop :=
  (∀ (text : List Char) (is : List Instr), commandsOf text = .ok is →
    ∃ words, assemble text = .ok words ∧ words.map decode = is) ∧
  (commandsOf "NOP".toList = .ok [.nop] ∧ commandsOf "TICK".toList = .ok [.tick] ∧
    commandsOf "RESYNC".toList = .ok [.resync] ∧ commandsOf "RESYNC+TICK".toList = .ok [.resyncTick] ∧
    commandsOf "RESET".toList = .ok [.reset]) ∧
  (∀ (v : Word16) (zeros : Nat) (operand digits : List Char),
    (operand = List.replicate zeros '0' ++ Nat.toDigits 10 v.toNat ∨
      (operand = '0' :: 'x' :: digits ∧ digits.length ≤ 4 ∧
        digits.map Char.toLower = List.replicate zeros '0' ++ Nat.toDigits 16 v.toNat)) →
    commandsOf ("SETINC".toList ++ ' ' :: operand) = .ok [.setinc v] ∧
    commandsOf ("SETINC+TICK".toList ++ ' ' :: operand) = .ok [.setincTick v] ∧
    commandsOf ("SETINC+RESYNC".toList ++ ' ' :: operand) = .ok [.setincResync v] ∧
    commandsOf ("SETINC+RESYNC+TICK".toList ++ ' ' :: operand) = .ok [.setincResyncTick v]) ∧
  (∀ n zeros : Nat,
    commandsOf ("TICKN".toList ++ ' ' :: (List.replicate zeros '0' ++ Nat.toDigits 10 n)) =
      .ok (List.replicate n .tick) ∧
    commandsOf ("IDLE".toList ++ ' ' :: (List.replicate zeros '0' ++ Nat.toDigits 10 n)) =
      .ok (List.replicate n .nop)) ∧
  (commandsOf [] = .ok [] ∧ ∀ comment : List Char, '\n' ∉ comment →
    commandsOf (';' :: comment) = .ok [] ∧
    ∀ line : List Char, '\n' ∉ line → commandsOf (line ++ ';' :: comment) = commandsOf line) ∧
  (∀ (before after : List Char) (is : List Instr), commandsOf (before ++ '\n' :: after) = .ok is ↔
    ∃ js ks, commandsOf before = .ok js ∧ commandsOf after = .ok ks ∧ is = js ++ ks)

/-- R65, R66: what the assembler refuses, of the lines whose words stand one blank apart: a first word that is no
mnemonic and no pseudo-command, in any other case or order of parts too; a missing operand; any operand of a mnemonic
that takes none; two operands or more; an immediate above 65535, never truncated; and an operand that is no number of
the syntax. The names of the refusals and other white space are log entry 10. -/
def Obligations.AssemblerRefusesOtherLines : Prop :=
  let plain := ["NOP", "TICK", "RESYNC", "RESYNC+TICK", "RESET"].map String.toList
  let withImm := ["SETINC", "SETINC+TICK", "SETINC+RESYNC", "SETINC+RESYNC+TICK"].map String.toList
  let pseudo := ["TICKN", "IDLE"].map String.toList
  (∀ word rest : List Char, IsWord word → word ∉ plain ++ withImm ++ pseudo → '\n' ∉ rest →
    commandsOf word = .error .unknownCommand ∧ commandsOf (word ++ ' ' :: rest) = .error .unknownCommand) ∧
  (∀ name ∈ withImm ++ pseudo, commandsOf name = .error .missingOperand) ∧
  (∀ name ∈ plain, ∀ operand : List Char, IsWord operand → commandsOf (name ++ ' ' :: operand) =
    .error (if (parseImm operand).isSome then .unexpectedOperand else .badNumber)) ∧
  (∀ name ∈ plain ++ withImm ++ pseudo, ∀ operands : List (List Char), (∀ operand ∈ operands, IsWord operand) →
    2 ≤ operands.length →
    commandsOf (name ++ operands.flatMap fun operand => ' ' :: operand) = .error .unexpectedOperand) ∧
  (∀ name ∈ withImm, ∀ n zeros : Nat, 65535 < n →
    commandsOf (name ++ ' ' :: (List.replicate zeros '0' ++ Nat.toDigits 10 n)) = .error .immediateOutOfRange) ∧
  (∀ name ∈ withImm, ∀ digits : List Char, IsWord ('0' :: 'x' :: digits) →
    (digits = [] ∨ 4 < digits.length ∨ ∃ c ∈ digits, ∀ d < 16, c.toLower ≠ Nat.digitChar d) →
    commandsOf (name ++ ' ' :: '0' :: 'x' :: digits) = .error .badNumber) ∧
  (∀ operand : List Char, IsWord operand → (∃ c ∈ operand, c.isDigit = false) →
    (∀ name ∈ pseudo, commandsOf (name ++ ' ' :: operand) = .error .badNumber) ∧
    ((∀ digits, operand ≠ '0' :: 'x' :: digits) →
      ∀ name ∈ withImm, commandsOf (name ++ ' ' :: operand) = .error .badNumber))
end

