-- ==== Sys2Proof/Laws/Decode.lean ====
section
/-! SUPPORT. The bits and the fields of a packed command word, one lemma each. -/

namespace Sys2Proof

/-- Every bit of a packed word (R61). -/
theorem packWord_getLsbD (r w s t : Bool) (d : Word16) (k : Nat) :
    (packWord r w s t d).getLsbD k =
      if k < 16 then d.getLsbD k else if k = 16 then t else if k = 17 then s
      else if k = 18 then w else if k = 19 then r else false := by
  have h : (packWord r w s t d).getLsbD k =
      BitVec.getLsbD (w := 1 + 1 + 1 + 1 + 16)
        (BitVec.ofBool r ++ BitVec.ofBool w ++ BitVec.ofBool s ++ BitVec.ofBool t ++ d) k := rfl
  rw [h]
  by_cases h16 : k < 16
  · simp only [BitVec.getLsbD_append, h16, if_true]
  · obtain ⟨j, rfl⟩ : ∃ j, k = 16 + j := ⟨k - 16, by omega⟩
    by_cases hj : j < 4
    · have : j = 0 ∨ j = 1 ∨ j = 2 ∨ j = 3 := by omega
      rcases this with rfl | rfl | rfl | rfl <;>
        simp only [BitVec.getLsbD_append, BitVec.getLsbD_ofBool] <;> simp
    · rw [BitVec.getLsbD_of_ge _ _ (by omega)]
      simp only [show ¬ 16 + j < 16 by omega, show 16 + j ≠ 16 by omega, show 16 + j ≠ 17 by omega,
        show 16 + j ≠ 18 by omega, show 16 + j ≠ 19 by omega, if_false]

@[simp] theorem rstBit_packWord (r w s t : Bool) (d : Word16) : rstBit (packWord r w s t d) = r := by
  simp only [rstBit, packWord_getLsbD]; rfl
@[simp] theorem incWeBit_packWord (r w s t : Bool) (d : Word16) : incWeBit (packWord r w s t d) = w := by
  simp only [incWeBit, packWord_getLsbD]; rfl
@[simp] theorem resyncBit_packWord (r w s t : Bool) (d : Word16) : resyncBit (packWord r w s t d) = s := by
  simp only [resyncBit, packWord_getLsbD]; rfl
@[simp] theorem tickBit_packWord (r w s t : Bool) (d : Word16) : tickBit (packWord r w s t d) = t := by
  simp only [tickBit, packWord_getLsbD]; rfl
@[simp] theorem incWdataField_packWord (r w s t : Bool) (d : Word16) :
    incWdataField (packWord r w s t d) = d := by
  apply BitVec.eq_of_getLsbD_eq
  intro k hk
  simp only [incWdataField, BitVec.getLsbD_extractLsb', packWord_getLsbD, Nat.zero_add, hk, decide_true,
    Bool.true_and, if_true]

/-- A word is packed from its own fields (R61). -/
theorem packWord_fields (w : CommandWord) :
    packWord (rstBit w) (incWeBit w) (resyncBit w) (tickBit w) (incWdataField w) = w := by
  apply BitVec.eq_of_getLsbD_eq
  intro k hk
  rw [packWord_getLsbD]
  by_cases h : k < 16
  · simp only [h, if_true, incWdataField, BitVec.getLsbD_extractLsb', Nat.zero_add, decide_true, Bool.true_and]
  · have : k = 16 ∨ k = 17 ∨ k = 18 ∨ k = 19 := by omega
    rcases this with rfl | rfl | rfl | rfl <;> rfl

/-- What the decoder reads from packed fields (R63). -/
theorem decode_packWord (r w s t : Bool) (d : Word16) :
    decode (packWord r w s t d) =
      bif r then .reset
      else bif w then
        bif s then (bif t then .setincResyncTick d else .setincResync d)
        else (bif t then .setincTick d else .setinc d)
      else
        bif s then (bif t then .resyncTick else .resync)
        else (bif t then .tick else .nop) := by
  unfold decode
  rw [rstBit_packWord, incWeBit_packWord, resyncBit_packWord, tickBit_packWord, incWdataField_packWord]
  cases r <;> cases w <;> cases s <;> cases t <;> rfl

end Sys2Proof
end

