-- ==== Sys2Proof/Laws/Assembler.lean ====
section
/-! SUPPORT. What each function of the assembler can do: cutting a text, reading a number, reading a line. -/

namespace Sys2Proof.Assembler

/-! ## Cutting a text -/

theorem splitOn_ne_nil (sep : Char → Bool) (text : List Char) : splitOn sep text ≠ [] := by
  cases text with
  | nil => exact List.cons_ne_nil _ _
  | cons c cs =>
    unfold splitOn
    split <;> exact List.cons_ne_nil _ _

theorem splitOn_cons_sep {sep : Char → Bool} {c : Char} (h : sep c = true) (cs : List Char) :
    splitOn sep (c :: cs) = [] :: splitOn sep cs := by
  rw [splitOn, h]

/-- A text without a separator is one part. -/
theorem splitOn_of_forall {sep : Char → Bool} {text : List Char} (h : ∀ c ∈ text, sep c = false) :
    splitOn sep text = [text] := by
  induction text with
  | nil => rfl
  | cons c cs ih =>
    rw [splitOn, h c List.mem_cons_self, ih fun d hd => h d (List.mem_cons_of_mem _ hd)]

/-- A separator cuts: the parts are those before it and those after it. -/
theorem splitOn_append_sep {sep : Char → Bool} {x : Char} (hx : sep x = true) (before after : List Char) :
    splitOn sep (before ++ x :: after) = splitOn sep before ++ splitOn sep after := by
  induction before with
  | nil => exact splitOn_cons_sep hx after
  | cons c cs ih =>
    rw [List.cons_append, splitOn, splitOn, ih]
    cases hs : splitOn sep cs with
    | nil => exact absurd hs (splitOn_ne_nil sep cs)
    | cons part parts => cases sep c <;> rfl

@[simp] theorem wordsOf_nil : wordsOf [] = [] := rfl

theorem wordsOf_of_forall {line : List Char} (h : ∀ c ∈ line, c ≠ ';') :
    wordsOf line = (splitOn isBlank line).filter (· != []) := by
  have : line.takeWhile (· != ';') = line := List.takeWhile_eq_self_iff.2 fun c hc => by simpa using h c hc
  rw [wordsOf, this]

/-- A comment makes no word. -/
theorem wordsOf_append_comment (line comment : List Char) : wordsOf (line ++ ';' :: comment) = wordsOf line := by
  have : (line ++ ';' :: comment).takeWhile (· != ';') = line.takeWhile (· != ';') := by
    induction line with
    | nil => simp
    | cons c cs ih => simp only [List.cons_append, List.takeWhile_cons, ih]
  rw [wordsOf, wordsOf, this]

theorem wordsOf_word {word : List Char} (h : IsWord word) : wordsOf word = [word] := by
  rw [wordsOf_of_forall fun c hc => (h.2 c hc).2.1, splitOn_of_forall fun c hc => (h.2 c hc).1]
  simp [h.1]

/-- A word and a blank at the front of a line are its first word. -/
theorem wordsOf_word_blank {word : List Char} (h : IsWord word) (rest : List Char) :
    wordsOf (word ++ ' ' :: rest) = word :: wordsOf rest := by
  have ht : (word ++ ' ' :: rest).takeWhile (· != ';') = word ++ ' ' :: rest.takeWhile (· != ';') := by
    rw [List.takeWhile_append_of_pos fun c hc => by simpa using (h.2 c hc).2.1]
    rfl
  rw [wordsOf, wordsOf, ht, splitOn_append_sep rfl, splitOn_of_forall fun c hc => (h.2 c hc).1, List.filter_append]
  simp [h.1]

/-- A word and operands, one blank before each, are the words of the line they make, and it is one line. -/
theorem wordsOf_word_operands {word : List Char} (h : IsWord word) {operands : List (List Char)}
    (ho : ∀ operand ∈ operands, IsWord operand) :
    wordsOf (word ++ operands.flatMap fun operand => ' ' :: operand) = word :: operands ∧
    '\n' ∉ word ++ operands.flatMap fun operand => ' ' :: operand := by
  induction operands generalizing word with
  | nil => simpa using ⟨wordsOf_word h, fun hc => (h.2 _ hc).2.2 rfl⟩
  | cons operand operands ih =>
    obtain ⟨hw, hn⟩ := ih (ho operand List.mem_cons_self) fun o hm => ho o (List.mem_cons_of_mem _ hm)
    rw [List.flatMap_cons, List.cons_append]
    refine ⟨by rw [wordsOf_word_blank h, hw], fun hc => ?_⟩
    rcases List.mem_append.1 hc with hc | hc
    · exact (h.2 _ hc).2.2 rfl
    · rcases List.mem_cons.1 hc with hc | hc
      · exact absurd hc (by decide)
      · exact hn hc

/-! ## Reading a number -/

theorem digitOf_congr {base : Nat} {c c' : Char} (h : c.toLower = c'.toLower) : digitOf base c = digitOf base c' := by
  rw [digitOf, digitOf, h]

theorem digitChar_inj : ∀ d < 16, ∀ e < 16, d.digitChar = e.digitChar → d = e := by decide

/-- A character is a digit below `base` exactly when it is that number's digit character, in either case. -/
theorem digitOf_eq_some {base : Nat} (hb : base ≤ 16) {c : Char} {d : Nat} :
    digitOf base c = some d ↔ d < base ∧ c.toLower = d.digitChar := by
  unfold digitOf
  constructor
  · intro h
    exact ⟨List.mem_range.1 (List.mem_of_find?_eq_some h),
      (beq_iff_eq.1 (by simpa using List.find?_some h)).symm⟩
  · rintro ⟨hd, hc⟩
    cases hf : (List.range base).find? fun e => e.digitChar == c.toLower with
    | none =>
      have := List.find?_eq_none.1 hf d (List.mem_range.2 hd)
      simp [hc] at this
    | some e =>
      have he := List.mem_range.1 (List.mem_of_find?_eq_some hf)
      have hce : e.digitChar = c.toLower := by simpa using List.find?_some hf
      rw [digitChar_inj e (by omega) d (by omega) (hce.trans hc)]

theorem digitOf_eq_none {base : Nat} {c : Char} : digitOf base c = none ↔ ∀ d < base, c.toLower ≠ d.digitChar := by
  unfold digitOf
  rw [List.find?_eq_none]
  exact ⟨fun h d hd hc => h d (List.mem_range.2 hd) (beq_iff_eq.2 hc.symm),
    fun h d hd hc => h d (List.mem_range.1 hd) (beq_iff_eq.1 hc).symm⟩

theorem numberFrom_append (base before : Nat) (front back : List Char) :
    numberFrom base before (front ++ back) =
      (numberFrom base before front).bind fun n => numberFrom base n back := by
  induction front generalizing before with
  | nil => rfl
  | cons c cs ih =>
    rw [List.cons_append, numberFrom, numberFrom]
    cases digitOf base c with
    | none => rfl
    | some d => exact ih _

theorem numberFrom_eq_none {base before : Nat} {digits : List Char} (h : ∃ c ∈ digits, digitOf base c = none) :
    numberFrom base before digits = none := by
  induction digits generalizing before with
  | nil => simp at h
  | cons c cs ih =>
    rw [numberFrom]
    cases hc : digitOf base c with
    | none => rfl
    | some d =>
      obtain ⟨x, hx, hn⟩ := h
      rcases List.mem_cons.1 hx with rfl | hx
      · rw [hc] at hn; cases hn
      · exact ih ⟨x, hx, hn⟩

/-- Leading zeros change nothing. -/
theorem numberFrom_zeros {base : Nat} (hb : 0 < base) (hb' : base ≤ 16) {zeros digits : List Char}
    (hz : ∀ c ∈ zeros, c = '0') : numberFrom base 0 (zeros ++ digits) = numberFrom base 0 digits := by
  induction zeros with
  | nil => rfl
  | cons c cs ih =>
    have hd : digitOf base '0' = some 0 := (digitOf_eq_some hb').2 ⟨hb, rfl⟩
    rw [List.cons_append, numberFrom, hz c List.mem_cons_self, hd, Option.bind_some, Nat.zero_mul, Nat.add_zero]
    exact ih fun d hd => hz d (List.mem_cons_of_mem _ hd)

/-- The digits of a number, in either case, read as that number. -/
theorem numberFrom_toDigits {base : Nat} (hb : 1 < base) (hb' : base ≤ 16) (n : Nat) :
    ∀ digits : List Char, digits.map Char.toLower = Nat.toDigits base n → numberFrom base 0 digits = some n := by
  induction n using Nat.strongRecOn with
  | ind n ih =>
    intro digits h
    by_cases hn : n < base
    · rw [Nat.toDigits_of_lt_base hn] at h
      obtain ⟨c, rfl, hc⟩ := List.map_eq_singleton_iff.1 h
      rw [numberFrom, (digitOf_eq_some hb').2 ⟨hn, hc⟩]
      simp [numberFrom]
    · rw [Nat.toDigits_of_base_le hb (by omega)] at h
      obtain ⟨front, back, rfl, hf, hl⟩ := List.map_eq_append_iff.1 h
      obtain ⟨c, rfl, hc⟩ := List.map_eq_singleton_iff.1 hl
      rw [numberFrom_append, ih (n / base) (Nat.div_lt_self (by omega) hb) front hf, Option.bind_some, numberFrom,
        (digitOf_eq_some hb').2 ⟨Nat.mod_lt _ (by omega), hc⟩]
      simp [numberFrom, Nat.div_add_mod']

/-! ## Reading a line -/

/-- A text of one line: its words, then its command. -/
theorem commandsOf_line {line : List Char} (h : '\n' ∉ line) :
    commandsOf line =
      match parseWords (wordsOf line) with
      | .error e => .error e
      | .ok l => expandLine l := by
  have hsep : ∀ c ∈ line, (c == '\n') = false := fun c hc => beq_eq_false_iff_ne.2 fun e => h (e ▸ hc)
  rw [commandsOf, splitOn_of_forall hsep]
  simp only [parseLines]
  cases parseWords (wordsOf line) with
  | error e => rfl
  | ok l =>
    simp only [expandLines]
    cases expandLine l with
    | error e => rfl
    | ok is => simp

/-! ## Lines by their words -/

/-- The commands of a line that has these words. -/
def commandsOfWords (words : List (List Char)) : Except AsmError (List Instr) :=
  match parseWords words with
  | .error e => .error e
  | .ok l => expandLine l

theorem newline_not_mem_word {word : List Char} (h : IsWord word) : '\n' ∉ word := fun hc => (h.2 _ hc).2.2 rfl

theorem newline_not_mem_word_blank {word rest : List Char} (h : IsWord word) (hr : '\n' ∉ rest) :
    '\n' ∉ word ++ ' ' :: rest := by
  intro hc
  rcases List.mem_append.1 hc with hc | hc
  · exact newline_not_mem_word h hc
  · rcases List.mem_cons.1 hc with hc | hc
    · exact absurd hc (by decide)
    · exact hr hc

theorem commandsOf_word {word : List Char} (h : IsWord word) : commandsOf word = commandsOfWords [word] := by
  rw [commandsOf_line (newline_not_mem_word h), wordsOf_word h]
  rfl

theorem commandsOf_word_blank {word rest : List Char} (h : IsWord word) (hr : '\n' ∉ rest) :
    commandsOf (word ++ ' ' :: rest) = commandsOfWords (word :: wordsOf rest) := by
  rw [commandsOf_line (newline_not_mem_word_blank h hr), wordsOf_word_blank h]
  rfl

theorem commandsOf_two_words {word operand : List Char} (h : IsWord word) (ho : IsWord operand) :
    commandsOf (word ++ ' ' :: operand) = commandsOfWords [word, operand] := by
  rw [commandsOf_word_blank h (newline_not_mem_word ho), wordsOf_word ho]

/-! ## The mnemonics and the numbers are words -/

/-- The texts of the mnemonics and pseudo-commands (R65, R66). -/
def mnemonicTexts : List String :=
  ["NOP", "TICK", "RESYNC", "RESYNC+TICK", "RESET", "SETINC", "SETINC+TICK", "SETINC+RESYNC", "SETINC+RESYNC+TICK",
   "TICKN", "IDLE"]

theorem isWord_mnemonic : ∀ text ∈ mnemonicTexts, IsWord text.toList := by
  simp [mnemonicTexts, IsWord, isBlank]

theorem keywordOf_nop : keywordOf "NOP".toList = some (.command .nop) := by rfl
theorem keywordOf_tick : keywordOf "TICK".toList = some (.command .tick) := by rfl
theorem keywordOf_resync : keywordOf "RESYNC".toList = some (.command .resync) := by rfl
theorem keywordOf_resyncTick : keywordOf "RESYNC+TICK".toList = some (.command .resyncTick) := by rfl
theorem keywordOf_reset : keywordOf "RESET".toList = some (.command .reset) := by rfl
theorem keywordOf_setinc : keywordOf "SETINC".toList = some (.command .setinc) := by rfl
theorem keywordOf_setincTick : keywordOf "SETINC+TICK".toList = some (.command .setincTick) := by rfl
theorem keywordOf_setincResync : keywordOf "SETINC+RESYNC".toList = some (.command .setincResync) := by rfl
theorem keywordOf_setincResyncTick :
    keywordOf "SETINC+RESYNC+TICK".toList = some (.command .setincResyncTick) := by rfl
theorem keywordOf_tickn : keywordOf "TICKN".toList = some .tickn := by rfl
theorem keywordOf_idle : keywordOf "IDLE".toList = some .idle := by rfl

theorem keywords_texts : keywords.map (·.1) =
    ["NOP", "TICK", "RESYNC", "RESYNC+TICK", "SETINC", "SETINC+TICK", "SETINC+RESYNC", "SETINC+RESYNC+TICK", "RESET",
     "TICKN", "IDLE"].map String.toList := by rfl

/-- A digit's character, in either case, is no separator. -/
theorem digit_not_separator {c : Char} {d : Nat} (hd : d < 16) (h : c.toLower = d.digitChar) :
    isBlank c = false ∧ c ≠ ';' ∧ c ≠ '\n' := by
  have hsep : ∀ d < 16, ' '.toLower ≠ d.digitChar ∧ '\t'.toLower ≠ d.digitChar ∧ '\r'.toLower ≠ d.digitChar ∧
      ';'.toLower ≠ d.digitChar ∧ '\n'.toLower ≠ d.digitChar := by decide
  obtain ⟨h1, h2, h3, h4, h5⟩ := hsep d hd
  refine ⟨?_, ?_, ?_⟩
  · simp only [isBlank, Bool.or_eq_false_iff, beq_eq_false_iff_ne]
    exact ⟨⟨fun e => h1 (e ▸ h), fun e => h2 (e ▸ h)⟩, fun e => h3 (e ▸ h)⟩
  · exact fun e => h4 (e ▸ h)
  · exact fun e => h5 (e ▸ h)

theorem toLower_digitChar : ∀ d < 16, d.digitChar.toLower = d.digitChar := by decide

theorem mem_toDigits {base n : Nat} (hb : 1 < base) {c : Char} (h : c ∈ Nat.toDigits base n) :
    ∃ d < base, c = d.digitChar := by
  induction n using Nat.strongRecOn with
  | ind n ih =>
    by_cases hn : n < base
    · rw [Nat.toDigits_of_lt_base hn] at h
      exact ⟨n, hn, by simpa using h⟩
    · rw [Nat.toDigits_of_base_le hb (by omega)] at h
      rcases List.mem_append.1 h with h | h
      · exact ih _ (Nat.div_lt_self (by omega) hb) h
      · exact ⟨n % base, Nat.mod_lt _ (by omega), by simpa using h⟩

theorem toDigits_ne_nil {base : Nat} (hb : 1 < base) (n : Nat) : Nat.toDigits base n ≠ [] := by
  by_cases hn : n < base
  · rw [Nat.toDigits_of_lt_base hn]
    simp
  · rw [Nat.toDigits_of_base_le hb (by omega)]
    simp

theorem map_toLower_toDigits {base : Nat} (hb : 1 < base) (hb' : base ≤ 16) (n : Nat) :
    (Nat.toDigits base n).map Char.toLower = Nat.toDigits base n := by
  conv_rhs => rw [← List.map_id (Nat.toDigits base n)]
  apply List.map_congr_left
  intro c hc
  obtain ⟨d, hd, rfl⟩ := mem_toDigits hb hc
  exact toLower_digitChar d (by omega)

/-- A decimal number, with leading zeros, is one word. -/
theorem isWord_decimal (zeros n : Nat) : IsWord (List.replicate zeros '0' ++ Nat.toDigits 10 n) := by
  refine ⟨by simp [toDigits_ne_nil (base := 10) (by decide) n], fun c hc => ?_⟩
  rcases List.mem_append.1 hc with hc | hc
  · exact digit_not_separator (d := 0) (by decide) (List.eq_of_mem_replicate hc ▸ rfl)
  · obtain ⟨d, hd, rfl⟩ := mem_toDigits (by decide) hc
    exact digit_not_separator (d := d) (by omega) (toLower_digitChar d (by omega))

/-- A decimal number, with leading zeros, is read as its value. -/
theorem parseDecimal_decimal (zeros n : Nat) :
    parseDecimal (List.replicate zeros '0' ++ Nat.toDigits 10 n) = some n := by
  have hval : numberFrom 10 0 (List.replicate zeros '0' ++ Nat.toDigits 10 n) = some n := by
    rw [numberFrom_zeros (by decide) (by decide) fun c hc => List.eq_of_mem_replicate hc]
    exact numberFrom_toDigits (by decide) (by decide) n _ (map_toLower_toDigits (by decide) (by decide) n)
  cases h : List.replicate zeros '0' ++ Nat.toDigits 10 n with
  | nil => exact absurd h (by simp [toDigits_ne_nil (base := 10) (by decide) n])
  | cons c cs => rw [h] at hval; exact hval

/-- An operand without the prefix `0x` is read as a decimal. -/
theorem parseImm_of_no_prefix {operand : List Char} (h : ∀ digits, operand ≠ '0' :: 'x' :: digits) :
    parseImm operand = parseDecimal operand := by
  unfold parseImm
  split
  · exact absurd rfl (h _)
  · rfl

/-! ## Several lines -/

/-- Two runs of source lines expand exactly when each does, one after the other. -/
theorem expandLines_append_ok {ls ms : List SourceLine} {is : List Instr} :
    expandLines (ls ++ ms) = .ok is ↔
      ∃ js ks, expandLines ls = .ok js ∧ expandLines ms = .ok ks ∧ is = js ++ ks := by
  induction ls generalizing is with
  | nil => simp [expandLines]
  | cons l ls ih =>
    simp only [List.cons_append, expandLines]
    cases expandLine l with
    | error e => simp
    | ok x =>
      cases hms : expandLines (ls ++ ms) with
      | error e =>
        cases hls : expandLines ls with
        | error e' => simp
        | ok js =>
          cases hk : expandLines ms with
          | error e' => simp
          | ok ks => exact absurd (hms.symm.trans (ih.2 ⟨js, ks, hls, hk, rfl⟩)) (by simp)
      | ok y =>
        obtain ⟨js, ks, hj, hk, rfl⟩ := ih.1 hms
        simp [hj, hk, eq_comm]

/-- Two runs of lines parse exactly when each does, one after the other. -/
theorem parseLines_append_ok {as bs : List (List Char)} {ls : List SourceLine} :
    parseLines (as ++ bs) = .ok ls ↔
      ∃ js ks, parseLines as = .ok js ∧ parseLines bs = .ok ks ∧ ls = js ++ ks := by
  induction as generalizing ls with
  | nil => simp [parseLines]
  | cons a as ih =>
    simp only [List.cons_append, parseLines]
    cases parseWords (wordsOf a) with
    | error e => simp
    | ok x =>
      cases hms : parseLines (as ++ bs) with
      | error e =>
        cases hls : parseLines as with
        | error e' => simp
        | ok js =>
          cases hk : parseLines bs with
          | error e' => simp
          | ok ks => exact absurd (hms.symm.trans (ih.2 ⟨js, ks, hls, hk, rfl⟩)) (by simp)
      | ok y =>
        obtain ⟨js, ks, hj, hk, rfl⟩ := ih.1 hms
        simp [hj, hk, eq_comm]

/-- A text is accepted exactly when its lines parse and expand. -/
theorem commandsOf_ok {text : List Char} {is : List Instr} :
    commandsOf text = .ok is ↔
      ∃ ls, parseLines (splitOn (· == '\n') text) = .ok ls ∧ expandLines ls = .ok is := by
  unfold commandsOf
  cases parseLines (splitOn (· == '\n') text) with
  | error e => simp
  | ok ls => simp

end Sys2Proof.Assembler
end

