-- ==== Sys2Proof/Laws/Flags.lean ====
section
/-! SUPPORT. The cases of the FSM's functions, one equation each. -/

namespace Sys2Proof.Machine

@[simp] theorem enableA_up (ov : Bool) : enableA true ov = !ov := rfl
@[simp] theorem enableA_down (ov : Bool) : enableA false ov = true := rfl
@[simp] theorem enableB_up (ov : Bool) : enableB true ov = true := rfl
@[simp] theorem enableB_down (ov : Bool) : enableB false ov = !ov := rfl
@[simp] theorem dsNext_up (ds : Word16) : dsNext true true ds = ds + 1#16 := rfl
@[simp] theorem dsNext_down (ds : Word16) : dsNext false true ds = ds - 1#16 := rfl
@[simp] theorem dsNext_hold (up : Bool) (ds : Word16) : dsNext up false ds = ds := by cases up <;> rfl
@[simp] theorem upNext_up (T ds : Word16) : upNext T true true ds = if ds = T then false else true := rfl
@[simp] theorem upNext_down (T ds : Word16) : upNext T false true ds = if ds = 0#16 then true else false := rfl
@[simp] theorem upNext_hold (T : Word16) (up : Bool) (ds : Word16) : upNext T up false ds = up := by
  cases up <;> rfl

end Sys2Proof.Machine
end

