-- ==== Sys2Proof/Laws/Noise.lean ====
section
/-! SUPPORT. Small laws of the generator step: its bits, its linearity, and what stepping by an enable does to
an iterate. -/

namespace Sys2Proof.Machine

/-- The bits of the feedback constant (R6). -/
theorem tap_getLsbD (k : Nat) : tap.getLsbD k = decide (k = 0 ∨ k = 1 ∨ k = 21 ∨ k = 31) := by
  by_cases h : k < 32
  · revert k; decide
  · rw [BitVec.getLsbD_of_ge _ _ (by omega)]; symm; simp; omega

/-- One formula for every bit of the step. -/
theorem step32_getLsbD (x : Word32) (k : Nat) :
    (step32 x).getLsbD k = (x.getLsbD (k + 1) ^^ (x.getLsbD 0 && tap.getLsbD k)) := by
  unfold step32
  cases h : x.getLsbD 0 <;> simp only [Bool.false_eq_true, if_false, if_true, BitVec.getLsbD_xor,
    BitVec.getLsbD_ushiftRight, Bool.false_and, Bool.true_and, Bool.xor_false, Nat.add_comm 1 k]

/-- The step is linear over exclusive-or. -/
theorem step32_xor (x y : Word32) : step32 (x ^^^ y) = step32 x ^^^ step32 y := by
  apply BitVec.eq_of_getLsbD_eq
  intro k _
  simp only [BitVec.getLsbD_xor, step32_getLsbD]
  cases x.getLsbD (k + 1) <;> cases y.getLsbD (k + 1) <;> cases x.getLsbD 0 <;> cases y.getLsbD 0 <;>
    cases tap.getLsbD k <;> rfl

theorem step32_iterate_xor (n : Nat) (x y : Word32) : step32^[n] (x ^^^ y) = step32^[n] x ^^^ step32^[n] y := by
  induction n generalizing x y with
  | zero => rfl
  | succ n ih => simp only [Function.iterate_succ_apply, step32_xor, ih]

@[simp] theorem generatorNext_true (x : Word32) : generatorNext true x = step32 x := rfl
@[simp] theorem generatorNext_false (x : Word32) : generatorNext false x = x := rfl

/-- Stepping by an enable is iterating as often as the enable counts. -/
theorem generatorNext_eq_iterate (en : Bool) (x : Word32) : generatorNext en x = step32^[en.toNat] x := by
  cases en <;> rfl

end Sys2Proof.Machine
end

