-- ==== Sys2Proof/Laws/LinearStep.lean ====
section
/-! SUPPORT. The generator step as a matrix over GF(2), for statements about many steps: a column list applied to
a word, composition of column lists, and the column list of one step. -/

namespace Sys2Proof.Machine

/-- A matrix as its list of columns, applied to a word: the exclusive-or of the columns of the word's set bits. -/
def colsApply : List Nat → Nat → Nat
  | [], _ => 0
  | c :: cs, x => (bif x % 2 == 1 then c else 0) ^^^ colsApply cs (x / 2)

/-- The product of two matrices. -/
def colsMul (a b : List Nat) : List Nat := b.map (colsApply a)

/-- The columns of one step: bit 0 feeds `TAP`, every other bit moves down by one. -/
def stepCols : List Nat := tap.toNat :: (List.range' 0 31).map (2 ^ ·)

/-- A column list represents a function on words. -/
def Represents (cols : List Nat) (f : Word32 → Word32) : Prop :=
  ∀ x : Word32, (f x).toNat = colsApply cols x.toNat

theorem colsApply_zero (cols : List Nat) : colsApply cols 0 = 0 := by
  induction cols with
  | nil => rfl
  | cons c cs ih => rw [colsApply]; exact congrArg (0 ^^^ ·) ih

theorem colsApply_xor (cols : List Nat) (x y : Nat) :
    colsApply cols (x ^^^ y) = colsApply cols x ^^^ colsApply cols y := by
  induction cols generalizing x y with
  | nil => simp only [colsApply, Nat.xor_self]
  | cons c cs ih =>
    have hd : (x ^^^ y) / 2 = x / 2 ^^^ y / 2 := Nat.xor_div_two
    have hb : (bif (x ^^^ y) % 2 == 1 then c else 0) =
        (bif x % 2 == 1 then c else 0) ^^^ (bif y % 2 == 1 then c else 0) := by
      have hm : (x ^^^ y) % 2 = (x % 2 ^^^ y % 2) := by simpa using Nat.xor_mod_two_pow (a := x) (b := y) (n := 1)
      rw [hm]
      rcases Nat.mod_two_eq_zero_or_one x with hx | hx <;> rcases Nat.mod_two_eq_zero_or_one y with hy | hy <;>
        simp [hx, hy]
    simp only [colsApply, hd, hb, ih]
    ac_rfl

theorem colsApply_colsMul (a b : List Nat) (x : Nat) :
    colsApply (colsMul a b) x = colsApply a (colsApply b x) := by
  unfold colsMul
  induction b generalizing x with
  | nil => simp only [List.map_nil, colsApply, colsApply_zero]
  | cons c cs ih =>
    rw [List.map_cons, colsApply, colsApply, colsApply_xor, ih]
    cases x % 2 == 1
    · rw [cond_false, cond_false, colsApply_zero]
    · rfl

/-- Composition of represented functions is the product of their matrices. -/
theorem Represents_comp {a b : List Nat} {f g : Word32 → Word32} (hf : Represents a f) (hg : Represents b g) :
    Represents (colsMul a b) (f ∘ g) := by
  intro x
  rw [Function.comp_apply, hf, hg, colsApply_colsMul]

/-- The columns 2^j, 2^(j+1), … pick out the low bits of a word. -/
theorem colsApply_powers (n : Nat) : ∀ j x, colsApply ((List.range' j n).map (2 ^ ·)) x = (x % 2 ^ n) * 2 ^ j := by
  induction n with
  | zero => intro j x; simp [colsApply, Nat.mod_one]
  | succ n ih =>
    intro j x
    rw [List.range'_succ, List.map_cons, colsApply, ih]
    have hx : x % 2 ^ (n + 1) = x % 2 + 2 * (x / 2 % 2 ^ n) := by
      rw [Nat.pow_succ, Nat.mul_comm, Nat.mod_mul]
    have hb : (bif x % 2 == 1 then 2 ^ j else 0) = (x % 2) <<< j := by
      rcases Nat.mod_two_eq_zero_or_one x with h | h <;> simp [h, Nat.shiftLeft_eq]
    have hs : (x / 2 % 2 ^ n) * 2 ^ (j + 1) = (2 * (x / 2 % 2 ^ n)) <<< j := by
      rw [Nat.shiftLeft_eq, Nat.pow_succ]; ring
    have hxor : x % 2 ^^^ 2 * (x / 2 % 2 ^ n) = x % 2 + 2 * (x / 2 % 2 ^ n) := by
      generalize x / 2 % 2 ^ n = m
      rcases Nat.mod_two_eq_zero_or_one x with h | h <;> rw [h]
      · simp
      · rw [Nat.xor_comm, Nat.xor_one_of_even (by simp)]; omega
    rw [hb, hs, ← Nat.shiftLeft_xor_distrib, hxor, hx, Nat.shiftLeft_eq]

theorem Represents_step : Represents stepCols step32 := by
  intro x
  have hx : x.toNat / 2 % 2 ^ 31 = x.toNat / 2 := Nat.mod_eq_of_lt (by have := x.isLt; omega)
  rw [stepCols, colsApply, colsApply_powers, hx, Nat.pow_zero, Nat.mul_one]
  have h0 : x.getLsbD 0 = (x.toNat % 2 == 1) := by
    simp [BitVec.getLsbD, Nat.testBit_zero, beq_eq_decide]
  unfold step32
  rw [h0]
  have hshift : (x >>> 1).toNat = x.toNat / 2 := by simp [BitVec.toNat_ushiftRight, Nat.shiftRight_one]
  cases x.toNat % 2 == 1
  · simp only [Bool.false_eq_true, if_false, cond_false, hshift, Nat.zero_xor]
  · simp only [if_true, cond_true, BitVec.toNat_xor, hshift, Nat.xor_comm]

end Sys2Proof.Machine
end

