-- ==== Sys2Proof/Laws/State.lean ====
section
/-! SUPPORT. One lemma for each field and each update of the registers and of the state, all true by
unfolding once, so that no later proof unfolds an update. -/

namespace Sys2Proof.Machine

/-! ## SetInc -/
@[simp] theorem setIncRegs_A (v : Word16) (r : Regs) : (setIncRegs v r).A = r.A := rfl
@[simp] theorem setIncRegs_B (v : Word16) (r : Regs) : (setIncRegs v r).B = r.B := rfl
@[simp] theorem setIncRegs_acc (v : Word16) (r : Regs) : (setIncRegs v r).acc = r.acc := rfl
@[simp] theorem setIncRegs_inc (v : Word16) (r : Regs) : (setIncRegs v r).inc = v := rfl
@[simp] theorem setIncRegs_ds (v : Word16) (r : Regs) : (setIncRegs v r).ds = r.ds := rfl
@[simp] theorem setIncRegs_up (v : Word16) (r : Regs) : (setIncRegs v r).up = r.up := rfl
@[simp] theorem setIncRegs_duty_a (v : Word16) (r : Regs) : (setIncRegs v r).duty_a = r.duty_a := rfl
@[simp] theorem setIncRegs_duty_b (v : Word16) (r : Regs) : (setIncRegs v r).duty_b = r.duty_b := rfl

/-! ## Resync -/
@[simp] theorem resyncRegs_A (r : Regs) : (resyncRegs r).A = r.B := rfl
@[simp] theorem resyncRegs_B (r : Regs) : (resyncRegs r).B = r.B := rfl
@[simp] theorem resyncRegs_acc (r : Regs) : (resyncRegs r).acc = r.acc := rfl
@[simp] theorem resyncRegs_inc (r : Regs) : (resyncRegs r).inc = r.inc := rfl
@[simp] theorem resyncRegs_ds (r : Regs) : (resyncRegs r).ds = 0#16 := rfl
@[simp] theorem resyncRegs_up (r : Regs) : (resyncRegs r).up = true := rfl
@[simp] theorem resyncRegs_duty_a (r : Regs) : (resyncRegs r).duty_a = r.duty_a := rfl
@[simp] theorem resyncRegs_duty_b (r : Regs) : (resyncRegs r).duty_b = r.duty_b := rfl

/-! ## Tick -/
@[simp] theorem tickRegs_A (T : Word16) (r : Regs) :
    (tickRegs T r).A = generatorNext (enableA r.up r.ov) r.A := rfl
@[simp] theorem tickRegs_B (T : Word16) (r : Regs) :
    (tickRegs T r).B = generatorNext (enableB r.up r.ov) r.B := rfl
@[simp] theorem tickRegs_acc (T : Word16) (r : Regs) : (tickRegs T r).acc = accNext r.acc r.inc := rfl
@[simp] theorem tickRegs_inc (T : Word16) (r : Regs) : (tickRegs T r).inc = r.inc := rfl
@[simp] theorem tickRegs_ds (T : Word16) (r : Regs) : (tickRegs T r).ds = dsNext r.up r.ov r.ds := rfl
@[simp] theorem tickRegs_up (T : Word16) (r : Regs) :
    (tickRegs T r).up = upNext T r.up r.ov (dsNext r.up r.ov r.ds) := rfl
@[simp] theorem tickRegs_duty_a (T : Word16) (r : Regs) :
    (tickRegs T r).duty_a = lo8 (tickRegs T r).A := rfl
@[simp] theorem tickRegs_duty_b (T : Word16) (r : Regs) :
    (tickRegs T r).duty_b = lo8 (tickRegs T r).B := rfl

/-! ## Reset -/
@[simp] theorem resetRegs_A (p : Params) : (resetRegs p).A = p.seedA := rfl
@[simp] theorem resetRegs_B (p : Params) : (resetRegs p).B = p.seedB := rfl
@[simp] theorem resetRegs_acc (p : Params) : (resetRegs p).acc = p.phaseAccInit := rfl
@[simp] theorem resetRegs_inc (p : Params) : (resetRegs p).inc = p.phaseIncInit := rfl
@[simp] theorem resetRegs_ds (p : Params) : (resetRegs p).ds = 0#16 := rfl
@[simp] theorem resetRegs_up (p : Params) : (resetRegs p).up = true := rfl
@[simp] theorem resetRegs_duty_a (p : Params) : (resetRegs p).duty_a = 0#8 := rfl
@[simp] theorem resetRegs_duty_b (p : Params) : (resetRegs p).duty_b = 0#8 := rfl
@[simp] theorem resetOf_params (p : Params) : (State.resetOf p).params = p := rfl
@[simp] theorem resetOf_started (p : Params) : (State.resetOf p).started = true := rfl
@[simp] theorem resetOf_regs (p : Params) : (State.resetOf p).regs = resetRegs p := rfl

/-- The reset state is that of the instance with the default parameters. -/
theorem reset_eq_resetOf : State.reset = State.resetOf Config.defaultParams := rfl

/-! ## Sampling and driving the ports -/
theorem sampleInputs_cons {s : State} {p : Inputs} {rest : List Inputs} (h : s.inputs = p :: rest) :
    s.sampleInputs = (p, { s with inputs := rest }) := by
  simp only [State.sampleInputs, h]

theorem sampleInputs_nil {s : State} (h : s.inputs = []) :
    s.sampleInputs = (Config.undrivenInputs s.draws, { s with draws := s.draws + 1 }) := by
  simp only [State.sampleInputs, h]

@[simp] theorem sampleInputs_params (s : State) : s.sampleInputs.2.params = s.params := by
  unfold State.sampleInputs; split <;> rfl
@[simp] theorem sampleInputs_started (s : State) : s.sampleInputs.2.started = s.started := by
  unfold State.sampleInputs; split <;> rfl
@[simp] theorem sampleInputs_regs (s : State) : s.sampleInputs.2.regs = s.regs := by
  unfold State.sampleInputs; split <;> rfl

@[simp] theorem driveNext_params (s : State) (p : Inputs) : (s.driveNext p).params = s.params := rfl
@[simp] theorem driveNext_started (s : State) (p : Inputs) : (s.driveNext p).started = s.started := rfl
@[simp] theorem driveNext_regs (s : State) (p : Inputs) : (s.driveNext p).regs = s.regs := rfl
@[simp] theorem driveNext_inputs (s : State) (p : Inputs) :
    (s.driveNext p).inputs = p :: s.inputs.drop 1 := rfl
@[simp] theorem driveNext_draws (s : State) (p : Inputs) : (s.driveNext p).draws = s.draws := rfl

end Sys2Proof.Machine
end

