-- ==== Sys2Proof/Laws/Ops.lean ====
section
/-! SUPPORT. What a clock edge can do, said once: for the shared edge operation, for every command, and for a
run of commands. Later proofs cite these and never unfold a meaning. -/

namespace Sys2Proof.Machine

/-! ## The shared edge operation -/

theorem running_withRegs {s : State} (h : s.Running) (r : Regs) : State.Running { s with regs := r } := h

theorem atEdge_running {s : State} (h : s.Running) (i : Instr) (f : Regs → Regs) :
    s.atEdge i f = .next { s with regs := f s.regs } := by
  simp only [State.atEdge, h.1, h.2, if_true]

theorem atEdge_before_reset {s : State} (hl : s.params.legal = true) (hs : s.started = false) (i : Instr)
    (f : Regs → Regs) :
    s.atEdge i f = .next { s with regs := Config.unspecifiedRegs s.draws i s.regs, draws := s.draws + 1 } := by
  simp only [State.atEdge, hl, hs, if_true, Bool.false_eq_true, if_false]

theorem atEdge_illegal {s : State} (h : s.params.legal = false) (i : Instr) (f : Regs → Regs) :
    s.atEdge i f = .refused .illegalParameters := by
  simp only [State.atEdge, h, Bool.false_eq_true, if_false]

theorem atResetEdge_legal {s : State} (h : s.params.legal = true) :
    s.atResetEdge = .next { s with started := true, regs := resetRegs s.params } := by
  simp only [State.atResetEdge, h, if_true]

theorem atResetEdge_illegal {s : State} (h : s.params.legal = false) :
    s.atResetEdge = .refused .illegalParameters := by
  simp only [State.atResetEdge, h, Bool.false_eq_true, if_false]

/-! ## Every command -/

/-- The effect of a command other than RESET on the registers: its parts in the order of R47. -/
def partsRegs (T : Word16) (i : Instr) (r : Regs) : Regs :=
  if i.hasTick then tickRegs T (beforeTick i r) else beforeTick i r

/-- Every command but RESET is the shared edge operation with its parts in the order of R47. -/
theorem exec_eq_atEdge {i : Instr} (hi : i.isReset = false) (s : State) :
    exec i s = s.atEdge i (partsRegs s.params.targetDroppedSamples i) := by
  cases i with
  | reset => simp [Instr.isReset] at hi
  | nop => rfl
  | tick => rfl
  | resync => rfl
  | resyncTick => rfl
  | setinc v => rfl
  | setincTick v => rfl
  | setincResync v => rfl
  | setincResyncTick v => rfl

theorem isReset_iff {i : Instr} : i.isReset = true ↔ i = .reset := by
  cases i <;> simp [Instr.isReset]

theorem exec_reset (s : State) : exec .reset s = s.atResetEdge := rfl

/-- A command after the first RESET. -/
theorem exec_running {s : State} (h : s.Running) {i : Instr} (hi : i.isReset = false) :
    exec i s = .next { s with regs := partsRegs s.params.targetDroppedSamples i s.regs } := by
  rw [exec_eq_atEdge hi, atEdge_running h]

/-- Everything a command that answers a next state has done. -/
theorem exec_next_cases {i : Instr} {s t : State} (h : exec i s = .next t) :
    s.params.legal = true ∧
    ((i = .reset ∧ t = { s with started := true, regs := resetRegs s.params }) ∨
     (i.isReset = false ∧ s.started = true ∧
        t = { s with regs := partsRegs s.params.targetDroppedSamples i s.regs }) ∨
     (i.isReset = false ∧ s.started = false ∧
        t = { s with regs := Config.unspecifiedRegs s.draws i s.regs, draws := s.draws + 1 })) := by
  cases hl : s.params.legal with
  | false =>
    cases hi : i.isReset with
    | true =>
      rw [isReset_iff.mp hi, exec_reset, atResetEdge_illegal hl] at h
      cases h
    | false =>
      rw [exec_eq_atEdge hi, atEdge_illegal hl] at h
      cases h
  | true =>
    refine ⟨rfl, ?_⟩
    cases hi : i.isReset with
    | true =>
      obtain rfl := isReset_iff.mp hi
      rw [exec_reset, atResetEdge_legal hl] at h
      exact .inl ⟨rfl, by cases h; rfl⟩
    | false =>
      cases hs : s.started with
      | true =>
        rw [exec_running ⟨hl, hs⟩ hi] at h
        exact .inr (.inl ⟨rfl, rfl, by cases h; rw [hs]⟩)
      | false =>
        rw [exec_eq_atEdge hi, atEdge_before_reset hl hs] at h
        exact .inr (.inr ⟨rfl, rfl, by cases h; rw [hs]⟩)

theorem exec_illegal {s : State} (h : s.params.legal = false) (i : Instr) :
    exec i s = .refused .illegalParameters := by
  cases hi : i.isReset with
  | true => rw [isReset_iff.mp hi, exec_reset, atResetEdge_illegal h]
  | false => rw [exec_eq_atEdge hi, atEdge_illegal h]

/-- A command neither reads nor writes what the ports carry at later edges. -/
theorem exec_withInputs {i : Instr} {s t : State} (h : exec i s = .next t) (ins : List Inputs) :
    exec i { s with inputs := ins } = .next { t with inputs := ins } := by
  obtain ⟨hl, h | h | h⟩ := exec_next_cases h
  · obtain ⟨rfl, rfl⟩ := h
    rw [exec_reset, atResetEdge_legal (s := { s with inputs := ins }) hl]
  · obtain ⟨hi, hs, rfl⟩ := h
    rw [exec_running (s := { s with inputs := ins }) ⟨hl, hs⟩ hi]
  · obtain ⟨hi, hs, rfl⟩ := h
    rw [exec_eq_atEdge hi, atEdge_before_reset (s := { s with inputs := ins }) hl hs]

/-! ## Runs of steps -/

/-- The host's run, one step at a time. -/
theorem hostRun_succ (M : Host.Core) (k : Nat) (s : M.State) :
    M.run (k + 1) s =
      match M.step s with
      | .next t => M.run k t
      | .fault f => .fault f
      | .refused r => .refused r := rfl

/-- The runs the statements speak of are the host's. -/
theorem core_run_eq_runSteps (n : Nat) (s : State) : Host.Core.run core n s = runSteps n s := by
  induction n generalizing s with
  | zero => rfl
  | succ n ih =>
    refine (hostRun_succ core n s).trans ?_
    unfold runSteps
    have hs : core.step s = step s := rfl
    rw [hs]
    cases step s with
    | next t => exact ih t
    | fault f => rfl
    | refused r => rfl

theorem runSteps_succ_next {s t : State} (h : step s = .next t) (n : Nat) :
    runSteps (n + 1) s = runSteps n t := by
  simp only [runSteps, h]

/-- A run of steps that answers a next state passed through one at its first edge. -/
theorem runSteps_succ_cases {n : Nat} {s u : State} (h : runSteps (n + 1) s = .next u) :
    ∃ t, step s = .next t ∧ runSteps n t = .next u := by
  unfold runSteps at h
  split at h
  · exact ⟨_, ‹_›, h⟩
  · cases h
  · cases h

/-! ## Runs of commands -/

@[simp] theorem runCommands_nil (s : State) : runCommands [] s = .next s := rfl

theorem runCommands_cons_next {i : Instr} {s t : State} (h : exec i s = .next t) (is : List Instr) :
    runCommands (i :: is) s = runCommands is t := by
  simp only [runCommands, h]

/-- The registers after a list of commands without RESET. -/
def runRegs (T : Word16) : List Instr → Regs → Regs
  | [], r => r
  | i :: is, r => runRegs T is (partsRegs T i r)

/-- A running machine completes every list of commands without RESET, and only its registers change. -/
theorem runCommands_running {is : List Instr} (hi : ∀ i ∈ is, i.isReset = false) :
    ∀ {s : State}, s.Running →
      runCommands is s = .next { s with regs := runRegs s.params.targetDroppedSamples is s.regs } := by
  induction is with
  | nil => intro s _; rfl
  | cons i is ih =>
    intro s h
    rw [runCommands_cons_next (exec_running h (hi i List.mem_cons_self))]
    exact ih (fun j hj => hi j (List.mem_cons_of_mem _ hj)) (running_withRegs h _)

/-- A run that answers a next state passed through one for its first command. -/
theorem runCommands_cons_cases {i : Instr} {is : List Instr} {s u : State}
    (h : runCommands (i :: is) s = .next u) : ∃ t, exec i s = .next t ∧ runCommands is t = .next u := by
  unfold runCommands at h
  split at h
  · exact ⟨_, ‹_›, h⟩
  · cases h
  · cases h

/-- An induction along a run, packaged once: what each command of the run keeps, the run keeps. -/
theorem runCommands_keeps {P : State → Prop} {is : List Instr}
    (hstep : ∀ i ∈ is, ∀ s t, P s → exec i s = .next t → P t) :
    ∀ {s t : State}, P s → runCommands is s = .next t → P t := by
  induction is with
  | nil => intro s t hp h; cases h; exact hp
  | cons i is ih =>
    intro s t hp h
    obtain ⟨u, hu, hrest⟩ := runCommands_cons_cases h
    exact ih (fun j hj => hstep j (List.mem_cons_of_mem _ hj))
      (hstep i List.mem_cons_self s u hp hu) hrest

theorem tally_cons_next {i : Instr} {s t : State} (h : exec i s = .next t) (is : List Instr) :
    tally (i :: is) s =
      { kA := (tallyOf i s).kA + (tally is t).kA, kB := (tallyOf i s).kB + (tally is t).kB,
        ovs := (tallyOf i s).ovs + (tally is t).ovs } := by
  simp only [tally, h]

end Sys2Proof.Machine
end

