-- ==== Sys2Proof/Laws/PerInstr.lean ====
section
/-! SUPPORT. Statements about every command as syntax, one lemma for each constructor. -/

/-- The word a command is encoded to lies in the row that the command map gives it (R63). -/
def Sys2Proof.Laws.EncodedRow.Statement (i : Sys2Proof.Instr) : Prop :=
  Sys2Proof.encode i &&& (Sys2Proof.opcodeRow i).mask = (Sys2Proof.opcodeRow i).bits

namespace Sys2Proof.Laws.EncodedRow

/-- A packed word under the mask of the eight rows without RESET is its strobe bits. -/
theorem packWord_and_strobes (r w s t : Bool) (d : Word16) :
    packWord r w s t d &&& 0xF0000#20 = packWord r w s t 0#16 := by
  apply BitVec.eq_of_getLsbD_eq
  intro k hk
  have hm : ∀ k < 20, (0xF0000#20).getLsbD k = decide (16 ≤ k) := by decide
  rw [BitVec.getLsbD_and, packWord_getLsbD, packWord_getLsbD, hm k hk]
  by_cases h : k < 16
  · simp [h]
  · simp [h, Nat.le_of_not_lt h]

theorem nop : Statement .nop := rfl
theorem tick : Statement .tick := rfl
theorem resync : Statement .resync := rfl
theorem resyncTick : Statement .resyncTick := rfl
theorem setinc (imm : Word16) : Statement (.setinc imm) :=
  packWord_and_strobes false true false false imm
theorem setincTick (imm : Word16) : Statement (.setincTick imm) :=
  packWord_and_strobes false true false true imm
theorem setincResync (imm : Word16) : Statement (.setincResync imm) :=
  packWord_and_strobes false true true false imm
theorem setincResyncTick (imm : Word16) : Statement (.setincResyncTick imm) :=
  packWord_and_strobes false true true true imm
theorem reset : Statement .reset := rfl

end Sys2Proof.Laws.EncodedRow
end

