-- ==== Sys2Proof/Tests/Slice0.lean ====
section
/-! SUPPORT. Tests with results taken from spec/95_test_vectors.md and from the rules' own examples, the smoke
tests of the checks, and a witness for the hypotheses of each statement. Each test is about one step. -/

namespace Sys2Proof.Tests

open Sys2Proof Sys2Proof.Machine Sys2Proof.Assembler

/-! ## Decoding: one word of each row, written out from the encoding column of 30_encoding.md R63 -/

theorem test_decode_nop : decode 0b0000_1010101111001101#20 = .nop := by decide
theorem test_decode_tick : decode 0b0001_0000000000000001#20 = .tick := by decide
theorem test_decode_resync : decode 0b0010_1000000000000000#20 = .resync := by decide
theorem test_decode_resyncTick : decode 0b0011_0000000000000000#20 = .resyncTick := by decide
theorem test_decode_setinc : decode 0b0100_0001001000110100#20 = .setinc 0x1234#16 := by decide
theorem test_decode_setincTick : decode 0b0101_1111111111111111#20 = .setincTick 0xFFFF#16 := by decide
theorem test_decode_setincResync : decode 0b0110_0001000100010001#20 = .setincResync 0x1111#16 := by decide
theorem test_decode_setincResyncTick :
    decode 0b0111_1000000000000001#20 = .setincResyncTick 0x8001#16 := by decide
theorem test_decode_reset : decode 0b1111_0001001000110100#20 = .reset := by decide
theorem test_decode_reset_without_strobes : decode 0b1000_0000000000000000#20 = .reset := by decide

/-- A number with bit 20 set is no command word. -/
theorem test_decodeBits_rejects_by_name : decodeBits 24 0x100000 = .error .notACommandWord := by rfl
theorem test_decodeTableWord_rejects : decodeTableWord 24 0x100000 = none := by decide
theorem test_decodeTableWord_of_table_bits : decodeTableWord 20 0x5FFFF = some (.setincTick 0xFFFF#16) := by decide

/-! ## The checks refuse what they are for -/

/-- The defaults of R7 as a request. -/
def defaults : ParamRequest :=
  { seedA := 1, seedB := 1, phaseAccInit := 1, phaseIncInit := 0xFFC0, targetDroppedSamples := 80 }

theorem test_wellFormed_defaults : defaults.wellFormed = true := by decide
theorem test_wellFormed_refuses_seedA :
    { defaults with seedA := 0 }.wellFormed = false ∧ { defaults with seedA := 0x100000000 }.wellFormed = false := by
  decide
theorem test_wellFormed_refuses_seedB :
    { defaults with seedB := 0 }.wellFormed = false ∧ { defaults with seedB := 0x100000000 }.wellFormed = false := by
  decide
theorem test_wellFormed_refuses_phaseAccInit :
    { defaults with phaseAccInit := 0 }.wellFormed = false ∧
    { defaults with phaseAccInit := 0x10000 }.wellFormed = false := by decide
theorem test_wellFormed_refuses_phaseIncInit :
    { defaults with phaseIncInit := 0x10000 }.wellFormed = false ∧
    { defaults with phaseIncInit := 0 }.wellFormed = true := by decide
theorem test_wellFormed_refuses_target :
    { defaults with targetDroppedSamples := 0 }.wellFormed = false ∧
    { defaults with targetDroppedSamples := 65536 }.wellFormed = false ∧
    { defaults with targetDroppedSamples := 65535 }.wellFormed = true := by decide
theorem test_legal_refuses_each :
    { Config.defaultParams with seedA := 0#32 }.legal = false ∧
    { Config.defaultParams with seedB := 0#32 }.legal = false ∧
    { Config.defaultParams with phaseAccInit := 0#16 }.legal = false ∧
    { Config.defaultParams with targetDroppedSamples := 0#16 }.legal = false := by decide
theorem test_wellFormed_refuses_missing_immediate :
    SourceLine.wellFormed (.command .setinc none) = false := by decide
theorem test_wellFormed_refuses_unexpected_immediate :
    SourceLine.wellFormed (.command .tick (some 1)) = false := by decide
theorem test_wellFormed_refuses_immediate_out_of_range :
    SourceLine.wellFormed (.command .setincTick (some 65536)) = false ∧
    SourceLine.wellFormed (.command .setincTick (some 65535)) = true := by decide

/-! ## Helpers: small states and what a step leaves -/

/-- The reset state with other registers. -/
def withRegs (r : Regs) : State := { State.reset with regs := r }

/-- The reset state with other registers and another depth. -/
def withDepth (T : Word16) (r : Regs) : State :=
  { State.reset with regs := r, params := { Config.defaultParams with targetDroppedSamples := T } }

/-- The registers of a next state. -/
def regsOf : Host.Outcome State Fault Refusal → Option Regs
  | .next s => some s.regs
  | .fault _ => none
  | .refused _ => none

/-- S0 of 95_test_vectors.md §2.6. -/
def s0 : State := withRegs ⟨0xB02C0003, 0xD8360002, 0x0000, 0xFFFF, 1, true, 0x03, 0x02⟩

/-- One edge from S0 with a command word. -/
def edge (w : Nat) : Option Regs := regsOf (step (s0.withFetchWord 20 w))

/-! ## One edge of each command from S0 (95_test_vectors.md §2.6) -/

theorem test_nop : edge 0x0ABCD = some ⟨0xB02C0003, 0xD8360002, 0x0000, 0xFFFF, 1, true, 0x03, 0x02⟩ := by decide
theorem test_tick : edge 0x10000 = some ⟨0xD8360002, 0x6C1B0001, 0xFFFF, 0xFFFF, 1, true, 0x02, 0x01⟩ := by decide
theorem test_resync : edge 0x20000 = some ⟨0xD8360002, 0xD8360002, 0x0000, 0xFFFF, 0, true, 0x03, 0x02⟩ := by
  decide
theorem test_resyncTick :
    edge 0x30000 = some ⟨0x6C1B0001, 0x6C1B0001, 0xFFFF, 0xFFFF, 0, true, 0x01, 0x01⟩ := by decide
theorem test_setinc : edge 0x41234 = some ⟨0xB02C0003, 0xD8360002, 0x0000, 0x1234, 1, true, 0x03, 0x02⟩ := by
  decide
theorem test_setincTick :
    edge 0x50001 = some ⟨0xD8360002, 0x6C1B0001, 0x0001, 0x0001, 1, true, 0x02, 0x01⟩ := by decide
theorem test_setincResync :
    edge 0x60001 = some ⟨0xD8360002, 0xD8360002, 0x0000, 0x0001, 0, true, 0x03, 0x02⟩ := by decide
theorem test_setincResyncTick :
    edge 0x70001 = some ⟨0x6C1B0001, 0x6C1B0001, 0x0001, 0x0001, 0, true, 0x01, 0x01⟩ := by decide
theorem test_reset : edge 0xF1234 = some ⟨0x00000001, 0x00000001, 0x0001, 0xFFC0, 0, true, 0x00, 0x00⟩ := by decide

/-- The first TICK after reset (44_commands.md R123, example). -/
theorem test_tick_from_reset : regsOf (step (State.reset.withFetchWord 24 0x10000)) =
    some ⟨0x80200003, 0x80200003, 0xFFC1, 0xFFC0, 0, true, 0x03, 0x03⟩ := by decide

/-- The seeds of program P5: RESET loads them (95_test_vectors.md §3, P5 line 1). -/
theorem test_reset_loads_other_seeds : regsOf (exec .reset
      { s0 with params := { Config.defaultParams with seedA := 5, seedB := 9 }, started := false }) =
    some ⟨0x00000005, 0x00000009, 0x0001, 0xFFC0, 0, true, 0x00, 0x00⟩ := by decide

/-! ## The FSM (95_test_vectors.md §2.4, F1 to F11: A = 1, B = 2, inc = 1) -/

/-- One TICK from such a start: the depth, acc, ds, up before; A, B, ds, up, duty_a, duty_b after. -/
def fsmTick (T acc ds : Word16) (up : Bool) (a b : Word32) (ds' : Word16) (up' : Bool) (da db : Sample) : Bool :=
  regsOf (exec .tick (withDepth T ⟨1, 2, acc, 1, ds, up, 0, 0⟩)) == some ⟨a, b, acc + 1, 1, ds', up', da, db⟩

theorem test_fsm_up :
    fsmTick 80 0x0000 5 true 0x80200003 1 5 true 0x03 0x01 && fsmTick 80 0xFFFF 5 true 1 1 6 true 0x01 0x01 &&
    fsmTick 80 0xFFFF 79 true 1 1 80 false 0x01 0x01 && fsmTick 1 0xFFFF 0 true 1 1 1 false 0x01 0x01 &&
    fsmTick 80 0xFFFF 80 true 1 1 81 true 0x01 0x01 &&
    fsmTick 80 0xFFFF 0xFFFF true 1 1 0 true 0x01 0x01 := by decide
theorem test_fsm_down :
    fsmTick 80 0x0000 80 false 0x80200003 1 80 false 0x03 0x01 &&
    fsmTick 80 0xFFFF 80 false 0x80200003 2 79 false 0x03 0x02 &&
    fsmTick 80 0xFFFF 1 false 0x80200003 2 0 true 0x03 0x02 &&
    fsmTick 1 0xFFFF 1 false 0x80200003 2 0 true 0x03 0x02 &&
    fsmTick 80 0xFFFF 0 false 0x80200003 2 65535 false 0x03 0x02 := by decide

/-! ## The generator (95_test_vectors.md §2.2) and the accumulator (§2.3) -/

theorem test_step32_and_inverse :
    step32 0x00000000 = 0x00000000 ∧ unstep32 0x00000000 = 0x00000000 ∧
    step32 0x00000001 = 0x80200003 ∧ unstep32 0x00000001 = 0x00000002 ∧
    step32 0x80000000 = 0x40000000 ∧ unstep32 0x80000000 = 0x00400007 ∧
    step32 0xFFFFFFFF = 0xFFDFFFFC ∧ unstep32 0xFFFFFFFF = 0xFFBFFFF9 ∧
    step32 0xDEADBEEF = 0xEF76DF74 ∧ unstep32 0xDEADBEEF = 0xBD1B7DD9 ∧
    step32 0x12345678 = 0x091A2B3C ∧ unstep32 0x12345678 = 0x2468ACF0 := by decide
theorem test_sixteen_steps_from_one : step32^[16] 1 = 0xB6F6B6C3 := by decide +kernel
theorem test_lo8 : lo8 0xC0300002 = 0x02 := by decide
theorem test_accumulator :
    accNext 0xFFFF 0x0001 = 0x0000 ∧ overflowOf 0xFFFF 0x0001 = true ∧
    accNext 0x7FFF 0x8000 = 0xFFFF ∧ overflowOf 0x7FFF 0x8000 = false ∧
    accNext 0x0000 0xFFFF = 0xFFFF ∧ overflowOf 0x0000 0xFFFF = false ∧
    accNext 0x0040 0xFFC0 = 0x0000 ∧ overflowOf 0x0040 0xFFC0 = true ∧
    accNext 0xFFFF 0xFFFF = 0xFFFE ∧ overflowOf 0xFFFF 0xFFFF = true ∧
    accNext 0xFFFF 0x0000 = 0xFFFF ∧ overflowOf 0xFFFF 0x0000 = false := by decide

/-! ## The outputs, and the time before the first RESET -/

theorem test_outputs : outDutyA s0 = some 0x03 ∧ outDutyB s0 = some 0x02 ∧
    outDutyA { s0 with started := false } = none := by decide

/-! ## The assembler (30_encoding.md R65, R66) -/

/-- Text in the syntax of R65: a comment, a blank line, a hexadecimal and a decimal immediate, a
pseudo-command. -/
theorem test_assemble_text :
    assemble ("RESET ; start".toList ++ ['\n', '\n'] ++ "SETINC+TICK 0xFFFF".toList ++ ['\n'] ++
      "SETINC 32768".toList ++ ['\n'] ++ "TICKN 2".toList) =
    .ok [0x80000, 0x5FFFF, 0x48000, 0x10000, 0x10000] := by rfl
theorem test_assemble_refuses_out_of_range :
    assemble "SETINC 65536".toList = .error .immediateOutOfRange := by rfl
theorem test_assemble_refuses_wrong_part_order :
    assemble "TICK+SETINC 1".toList = .error .unknownCommand := by rfl

/-! ## Witnesses: states and operands that meet the hypotheses of the statements

Every statement for a running machine is met by these states; a statement with further hypotheses has its own
witness, with a value at the edge of each clause's range. -/

/-- A TICK in this state overflows, counting up; at the top of its range it flips. -/
def upOv (T ds : Word16) : State := withDepth T ⟨1, 2, 0xFFFF, 1, ds, true, 0, 0⟩
/-- A TICK in this state overflows, counting down. -/
def downOv (T ds : Word16) : State := withDepth T ⟨1, 2, 0xFFFF, 1, ds, false, 0, 0⟩
/-- A TICK in this state does not overflow: the sum is 0xFFFF. -/
def noOv (up : Bool) : State := withDepth 80 ⟨1, 2, 0xFFFF, 0, 5, up, 0, 0⟩

theorem witness_Running : State.reset.Running ∧ s0.Running ∧ (upOv 1 0).Running ∧ (upOv 65535 65534).Running ∧
    (downOv 80 80).Running ∧ (noOv true).Running := by decide
theorem witness_IgnoredBitsHaveNoEffect :
    (0x80000#20).getLsbD 19 = true ∧ (0xFFFFF#20).getLsbD 19 = true ∧
    (0x3FFFF#20).getLsbD 19 = false ∧ (0x3FFFF#20).getLsbD 18 = false ∧
    (∀ k < 20, 16 ≤ k → (0x3FFFF#20).getLsbD k = (0x30000#20).getLsbD k) := by decide
theorem witness_StepRunsTheSampledCommand :
    (s0.withFetchWord 20 0x10000).inputs = Inputs.ofCommandWord 0x10000 :: [] ∧ s0.inputs = [] := by decide
theorem witness_FetchWordRunsNext :
    decodeTableWord 24 0xFFFFF = some .reset ∧ 20 ≤ 20 ∧ 0xFFFFF < 2 ^ 20 := by decide
/-- Both clauses, with another value on `inc_wdata` at each edge; the second is also the witness of the last clause of
ResyncCopiesBIntoA. -/
theorem witness_HeldStrobeActsAtEachEdge :
    { s0 with inputs := [⟨false, false, false, true, 0⟩, ⟨false, false, false, true, 0xFFFF⟩] }.inputs =
      [0, 0xFFFF].map (fun d => (⟨false, false, false, true, d⟩ : Inputs)) ++ [] ∧
    { s0 with inputs := [⟨false, false, true, false, 0⟩, ⟨false, false, true, false, 0xFFFF⟩] }.inputs =
      [0, 0xFFFF].map (fun d => (⟨false, false, true, false, d⟩ : Inputs)) ++ [] := by decide
theorem witness_command_words :
    0x0FFFF#20 &&& 0xF0000#20 = 0x00000#20 ∧ 0x1FFFF#20 &&& 0xF0000#20 = 0x10000#20 ∧
    0x2FFFF#20 &&& 0xF0000#20 = 0x20000#20 ∧ 0x3FFFF#20 &&& 0xF0000#20 = 0x30000#20 ∧
    0x4FFFF#20 &&& 0xF0000#20 = 0x40000#20 ∧ 0x5FFFF#20 &&& 0xF0000#20 = 0x50000#20 ∧
    0x6FFFF#20 &&& 0xF0000#20 = 0x60000#20 ∧ 0x7FFFF#20 &&& 0xF0000#20 = 0x70000#20 ∧
    0xFFFFF#20 &&& 0x80000#20 = 0x80000#20 := by decide
theorem witness_ResyncCopiesBIntoA :
    State.reset.Running ∧ State.reset.regs.A = State.reset.regs.B ∧ State.reset.regs.ds = 0#16 ∧
    State.reset.regs.up = true := by decide
theorem witness_overflow_clauses :
    (noOv true).regs.acc.toNat + (noOv true).regs.inc.toNat = 65535 ∧
    (upOv 1 0).regs.acc.toNat + (upOv 1 0).regs.inc.toNat = 65536 ∧
    (noOv true).regs.ov = false ∧ (upOv 1 0).regs.ov = true ∧ (downOv 1 1).regs.ov = true := by decide
theorem witness_ResetLoadsEveryField : { s0 with started := false }.params.legal = true := by decide
theorem witness_SameEdgeOrder :
    (Inputs.ofCommandWord 0x7FFFF).rst = false ∧ (Inputs.ofCommandWord 0xF1234).rst = true := by decide
theorem witness_StepIsBijective : 0x00000001#32 ≠ 0#32 ∧ 0xFFFFFFFF#32 ≠ 0#32 := by decide
theorem witness_GeneratorPeriodIsMaximal :
    0x00000001#32 ≠ 0#32 ∧ 0x80200003#32 ≠ 0#32 ∧ 0 < 1 ∧ 1 < 2 ^ 32 - 1 := by decide
theorem witness_GeneratorsStepIndependently : Instr.hasResync .tick = false ∧
    ∃ s' t', exec .tick s0 = .next s' ∧ exec .tick { s0 with regs := { s0.regs with B := 7 } } = .next t' :=
  ⟨by decide, _, _, rfl, rfl⟩
theorem witness_StepCornerCases :
    (0xFFFFFFFE#32).getLsbD 0 = false ∧ (0xFFFFFFFF#32).getLsbD 0 = true := by decide
theorem witness_AccumulatorAddsTheIncrementTickReads :
    Instr.hasTick (.setincTick 0xFFFF) = true ∧ Instr.hasTick (.setincResync 7) = false ∧
    Instr.isReset (.setincResync 7) = false := by decide
theorem witness_IncrementCornerCases : s0.Running ∧ s0.regs.inc = 0xFFFF#16 := by decide
theorem witness_OverflowRateFollowsIncrement : State.reset.regs.inc.toNat ≤ (0xFFC0#16).toNat := by decide
theorem witness_LagCounterMovesOnOverflow :
    ((upOv 80 5).regs.up = true ∧ (upOv 80 5).regs.ov = true) ∧
    ((downOv 80 5).regs.up = false ∧ (downOv 80 5).regs.ov = true) ∧ (noOv false).regs.ov = false := by decide
theorem witness_FlipTestIsExact :
    (upOv 80 79).Running ∧ (upOv 80 79).regs.InRange 80#16 ∧ (downOv 80 1).regs.InRange 80#16 ∧
    ∃ t, exec .tick (upOv 80 79) = .next t := ⟨by decide, by decide, by decide, _, rfl⟩
theorem witness_FlipActsFromTheNextTick :
    (∃ t, exec .tick (upOv 80 79) = .next t ∧ t.regs.up ≠ (upOv 80 79).regs.up) ∧
    (∃ t, exec .tick (downOv 80 1) = .next t ∧ t.regs.up ≠ (downOv 80 1).regs.up) :=
  ⟨⟨_, rfl, by decide⟩, ⟨_, rfl, by decide⟩⟩
theorem witness_FsmCornerCases :
    ((upOv 1 0).params.targetDroppedSamples = 1#16 ∧ (upOv 1 0).regs.up = true ∧ (upOv 1 0).regs.ds = 0#16 ∧
      (upOv 1 0).regs.ov = true) ∧
    ((upOv 80 80).regs.ds = (upOv 80 80).params.targetDroppedSamples ∧ (upOv 80 80).regs.ov = true) ∧
    ((downOv 80 0).regs.up = false ∧ (downOv 80 0).regs.ds = 0#16 ∧ (downOv 80 0).regs.ov = true) ∧
    ((upOv 80 0xFFFF).regs.ds = 0xFFFF#16 ∧ (upOv 80 0xFFFF).regs.ov = true) ∧
    (noOv true).regs.inc = 0#16 := by decide
/-- The second overflow of the first corner case exists. -/
theorem witness_FsmCornerCases_second_overflow :
    let s := withDepth 1 ⟨1, 2, 0xFFFF, 0xFFFF, 0, true, 0, 0⟩
    s.regs.ov = true ∧ ∃ t, exec .tick s = .next t ∧ t.regs.ov = true := ⟨by decide, _, rfl, by decide⟩
theorem witness_StepKeepsSafe :
    ∃ t, (upOv 80 79).Safe ∧ step ((upOv 80 79).withFetchWord 20 0x10000) = .next t ∧
      ((upOv 80 79).withFetchWord 20 0x10000).Safe := ⟨_, by decide, rfl, by decide⟩
/-- Also the witness of GeneratorsNeverZero and of ResetIsSafe. -/
theorem witness_LagStaysInRange :
    Config.defaultParams.legal = true ∧ Reachable Config.defaultParams (State.resetOf Config.defaultParams) :=
  ⟨by decide, [], rfl⟩
theorem witness_StepKeepsLag :
    State.reset.params.seedA = State.reset.params.seedB ∧ State.reset.LagSafe ∧
    (State.reset.withFetchWord 20 0x10000).LagSafe ∧
    ∃ t, exec .tick State.reset = .next t := ⟨by decide, by decide, by decide, _, rfl⟩
theorem witness_LagCountsTheDrift :
    State.reset.Running ∧ State.reset.regs.ds = 0#16 ∧ State.reset.regs.up = true ∧
    State.reset.regs.A = State.reset.regs.B ∧
    (∀ i ∈ [Instr.tick, .setincTick 0xFFFF, .nop, .setinc 0], i.isReset = false ∧ i.hasResync = false) := by decide
/-- With depth 1 the clauses meet after one overflow: none gives `m = 0 < T`, one gives `m = 1 = T`. -/
theorem witness_SweepTakesExactlyTOverflows :
    (upOv 1 0).Running ∧ (upOv 1 0).regs.ds = 0#16 ∧ (upOv 1 0).regs.up = true ∧
    (upOv 1 0).params.targetDroppedSamples.toNat = 1 ∧
    (tally [] (upOv 1 0)).ovs % 2 = 0 ∧ (tally [.tick] (upOv 1 0)).ovs % 2 = 1 ∧
    (∀ i ∈ [Instr.tick], i.isReset = false ∧ i.hasResync = false) := by decide
theorem witness_TickPublishesLowBytes :
    Instr.hasTick .tick = true ∧ Instr.hasTick (.setincResyncTick 0) = true := by decide
theorem witness_OutputsHoldWithoutTick :
    Instr.hasTick (.setincResync 7) = false ∧ Instr.isReset (.setincResync 7) = false ∧
    (∃ t, exec (.setincResync 7) s0 = .next t) ∧ ∃ t, exec .reset s0 = .next t :=
  ⟨by decide, by decide, ⟨_, rfl⟩, ⟨_, rfl⟩⟩
/-- Each field does change under some command, so no clause about writers is empty. -/
theorem witness_OnlyTheirAgentsWriteFields :
    ∃ t u, exec .tick (upOv 80 79) = .next t ∧ exec .reset t = .next u ∧ t.regs.B ≠ (upOv 80 79).regs.B ∧
      t.regs.acc ≠ (upOv 80 79).regs.acc ∧ t.regs.ds ≠ (upOv 80 79).regs.ds ∧ t.regs.up ≠ (upOv 80 79).regs.up ∧
      t.regs.duty_a ≠ (upOv 80 79).regs.duty_a ∧ t.regs.duty_b ≠ (upOv 80 79).regs.duty_b ∧
      u.regs.inc ≠ t.regs.inc := ⟨_, _, rfl, rfl, by decide⟩
theorem witness_ParametersNeverChange :
    (∃ t, exec .nop State.reset = .next t) ∧ ∃ t, runSteps 1 (s0.withFetchWord 20 0x10000) = .next t :=
  ⟨⟨_, rfl⟩, ⟨_, rfl⟩⟩
theorem witness_IllegalParametersAreRefused :
    (∃ s, elaborate defaults s0.regs [] 0 = .next s) ∧
    { s0 with params := { Config.defaultParams with seedA := 0#32 } }.params.legal = false :=
  ⟨⟨_, rfl⟩, by decide⟩
theorem witness_NoValueBeforeTheFirstReset :
    { s0 with started := false }.started = false ∧ { s0 with started := false }.params.legal = true ∧
    (∀ i ∈ [Instr.tick, .nop], i ≠ .reset) ∧
    ∃ t, runCommands [.tick, .nop] { s0 with started := false } = .next t :=
  ⟨by decide, by decide, by decide, _, rfl⟩
theorem witness_BootReachesTheResetState :
    (Inputs.ofCommandWord 0x80000).rst = true ∧
    ∃ s1 s2, elaborate defaults s0.regs ([Inputs.ofCommandWord 0] ++ Inputs.ofCommandWord 0x80000 :: []) 0 = .next s1 ∧
      runSteps 1 s1 = .next s2 := ⟨by decide, _, _, rfl, rfl⟩
theorem witness_NoHiddenStateAtTheOutputs :
    s0.Running ∧ { s0 with draws := 7, inputs := [Inputs.ofCommandWord 0x10000] }.Running := by decide
theorem witness_AssemblerAcceptsWellFormedLines :
    CommandName.takesImm .setinc = true ∧ 65535 < 65536 ∧
    expandLine (.command .setinc (some 65535)) = .ok [.setinc 0xFFFF#16] := ⟨by decide, by decide, rfl⟩
/-- A clause each: a text that is accepted; the largest immediate with a leading zero, in decimal and in both cases of
hexadecimal, and the smallest with one and with four digits; a comment and a line before it. -/
theorem witness_AssembledWordsDecodeToTheText :
    commandsOf "TICKN 2".toList = .ok [.tick, .tick] ∧
    ['0', '6', '5', '5', '3', '5'] = List.replicate 1 '0' ++ Nat.toDigits 10 (0xFFFF#16).toNat ∧
    (['F', 'f', 'F', 'F'].length ≤ 4 ∧
      ['F', 'f', 'F', 'F'].map Char.toLower = List.replicate 0 '0' ++ Nat.toDigits 16 (0xFFFF#16).toNat) ∧
    ['0'].map Char.toLower = List.replicate 0 '0' ++ Nat.toDigits 16 (0#16).toNat ∧
    (['0', '0', '0', '0'].length ≤ 4 ∧
      ['0', '0', '0', '0'].map Char.toLower = List.replicate 3 '0' ++ Nat.toDigits 16 (0#16).toNat) ∧
    '\n' ∉ [';', 'x'] ∧ '\n' ∉ "NOP ".toList :=
  ⟨by rfl, by rfl, ⟨by decide, by rfl⟩, by rfl, ⟨by decide, by rfl⟩, by decide, by decide⟩
/-- A clause each: an unknown word, operands of a mnemonic that takes none (a number, and none), two operands and three, the smallest immediate out of range, `0x` with no digit, with five and
with a letter that is none, and an operand that is no number. -/
theorem witness_AssemblerRefusesOtherLines :
    (IsWord ['n', 'o', 'p'] ∧ ['n', 'o', 'p'] ∉ ["NOP", "TICK", "RESYNC", "RESYNC+TICK", "RESET", "SETINC",
      "SETINC+TICK", "SETINC+RESYNC", "SETINC+RESYNC+TICK", "TICKN", "IDLE"].map String.toList ∧ '\n' ∉ ['1']) ∧
    (IsWord ['0', 'x', '1'] ∧ (parseImm ['0', 'x', '1']).isSome = true) ∧
    (IsWord ['f', 'o', 'o'] ∧ (parseImm ['f', 'o', 'o']).isSome = false) ∧
    ((∀ operand ∈ [['1'], ['2']], IsWord operand) ∧ 2 ≤ [['1'], ['2']].length) ∧
    ((∀ operand ∈ [['1'], ['2'], ['3']], IsWord operand) ∧ 2 ≤ [['1'], ['2'], ['3']].length) ∧ 65535 < 65536 ∧
    (IsWord ['0', 'x'] ∧ IsWord ['0', 'x', '0', '0', '0', '0', '0'] ∧ 4 < ['0', '0', '0', '0', '0'].length) ∧
    (IsWord ['0', 'x', 'g'] ∧ ∀ d < 16, 'g'.toLower ≠ Nat.digitChar d) ∧
    (IsWord ['-', '1'] ∧ '-'.isDigit = false) :=
  ⟨by simp [IsWord, isBlank], ⟨by simp [IsWord, isBlank], by rfl⟩, ⟨by simp [IsWord, isBlank], by rfl⟩,
    by simp [IsWord, isBlank], by simp [IsWord, isBlank], by decide, by simp [IsWord, isBlank],
    ⟨by simp [IsWord, isBlank], by decide⟩, by simp [IsWord, isBlank]⟩
theorem test_commands_of_hexadecimal :
    commandsOf "SETINC+RESYNC 0xfFc0".toList = .ok [.setincResync 0xFFC0#16] ∧
    commandsOf "SETINC 0x10000".toList = .error .badNumber := ⟨by rfl, by rfl⟩

end Sys2Proof.Tests
end

/-! ## Proofs of the scope family: the generator step, non-zero generators, legal parameters, the reset state -/

section
namespace Sys2Proof

/-! ### Legal parameters (R7, R8) -/

theorem Params.legal_iff {p : Params} :
    p.legal = true ↔
      p.seedA ≠ 0#32 ∧ p.seedB ≠ 0#32 ∧ p.phaseAccInit ≠ 0#16 ∧ p.targetDroppedSamples ≠ 0#16 := by
  simp only [Params.legal, Bool.and_eq_true, bne_iff_ne, and_assoc]

theorem ParamRequest.wellFormed_iff {r : ParamRequest} :
    r.wellFormed = true ↔
      1 ≤ r.seedA ∧ r.seedA ≤ 0xFFFFFFFF ∧ 1 ≤ r.seedB ∧ r.seedB ≤ 0xFFFFFFFF ∧
      1 ≤ r.phaseAccInit ∧ r.phaseAccInit ≤ 0xFFFF ∧ r.phaseIncInit ≤ 0xFFFF ∧
      1 ≤ r.targetDroppedSamples ∧ r.targetDroppedSamples ≤ 65535 := by
  simp only [ParamRequest.wellFormed, Bool.and_eq_true, decide_eq_true_eq, and_assoc]

/-- A well-formed request loses nothing at the widths of the parameters. -/
theorem ParamRequest.toParams_toNat {r : ParamRequest} (h : r.wellFormed = true) :
    r.toParams.seedA.toNat = r.seedA ∧ r.toParams.seedB.toNat = r.seedB ∧
    r.toParams.phaseAccInit.toNat = r.phaseAccInit ∧ r.toParams.phaseIncInit.toNat = r.phaseIncInit ∧
    r.toParams.targetDroppedSamples.toNat = r.targetDroppedSamples := by
  have hr := ParamRequest.wellFormed_iff.mp h
  simp only [ParamRequest.toParams, BitVec.toNat_ofNat]
  omega

theorem ParamRequest.toParams_legal {r : ParamRequest} (h : r.wellFormed = true) : r.toParams.legal = true := by
  obtain ⟨ha, -, hb, -, hacc, -, -, hT, -⟩ := ParamRequest.wellFormed_iff.mp h
  obtain ⟨ea, eb, eacc, -, eT⟩ := ParamRequest.toParams_toNat h
  simp only [Params.legal_iff, BitVec.toNat_ne, ea, eb, eacc, eT, BitVec.toNat_ofNat]
  omega

namespace Machine

theorem elaborate_wellFormed {r : ParamRequest} (h : r.wellFormed = true) (junk : Regs) (inputs : List Inputs)
    (draws : Nat) : elaborate r junk inputs draws = .next (State.powerUp r.toParams junk inputs draws) := by
  simp only [elaborate, h, if_true]

theorem elaborate_illFormed {r : ParamRequest} (h : r.wellFormed = false) (junk : Regs) (inputs : List Inputs)
    (draws : Nat) : elaborate r junk inputs draws = .refused .illegalParameters := by
  simp only [elaborate, h, Bool.false_eq_true, if_false]

theorem elaborate_refused_iff {r : ParamRequest} {junk : Regs} {inputs : List Inputs} {draws : Nat} :
    elaborate r junk inputs draws = .refused .illegalParameters ↔ ¬ r.wellFormed = true := by
  cases h : r.wellFormed with
  | true => simp [elaborate_wellFormed h]
  | false => simp [elaborate_illFormed h]

/-- Elaboration that answers a machine answers the powered-up machine of a well-formed request. -/
theorem elaborate_next_cases {r : ParamRequest} {junk : Regs} {inputs : List Inputs} {draws : Nat} {s : State}
    (h : elaborate r junk inputs draws = .next s) :
    r.wellFormed = true ∧ s = State.powerUp r.toParams junk inputs draws := by
  cases hr : r.wellFormed with
  | true => exact ⟨rfl, by rw [elaborate_wellFormed hr] at h; cases h; rfl⟩
  | false => rw [elaborate_illFormed hr] at h; cases h

@[simp] theorem powerUp_params (p : Params) (junk : Regs) (inputs : List Inputs) (draws : Nat) :
    (State.powerUp p junk inputs draws).params = p := rfl

theorem step_illegal {s : State} (h : s.params.legal = false) : step s = .refused .illegalParameters :=
  exec_illegal ((congrArg Params.legal (sampleInputs_params s)).trans h) _

/-- Settles O53: elaboration tests exactly the ranges of R7, the widths lose nothing of a request in range,
and no command has a meaning in a state with illegal parameters. -/
theorem illegalParametersAreRefused : Obligations.IllegalParametersAreRefused := by
  unfold Obligations.IllegalParametersAreRefused
  refine ⟨fun r junk inputs draws => ?refusal, fun r junk inputs draws s h => ?acceptance, fun _ => step_illegal⟩
  case refusal => rw [elaborate_refused_iff, ParamRequest.wellFormed_iff]
  case acceptance =>
    obtain ⟨hr, rfl⟩ := elaborate_next_cases h
    exact ⟨ParamRequest.toParams_legal hr, ParamRequest.toParams_toNat hr⟩

end Machine
end Sys2Proof
end

section
namespace Sys2Proof.Machine

/-! ### The generator step (R80, R82) -/

theorem step32_eq_xor (x : Word32) : step32 x = (x >>> 1) ^^^ (if x.getLsbD 0 then tap else 0#32) := by
  unfold step32
  split
  · rfl
  · exact (BitVec.xor_zero).symm

/-- Where the feedback constant has no bit, the step is the shift. -/
theorem step32_getLsbD_shift {k : Nat} (h : tap.getLsbD k = false) (x : Word32) :
    (step32 x).getLsbD k = x.getLsbD (k + 1) := by
  rw [step32_getLsbD, h, Bool.and_false, Bool.xor_false]

/-- Where the feedback constant has a bit, the bit shifted out is fed back. -/
theorem step32_getLsbD_feedback {k : Nat} (h : tap.getLsbD k = true) (x : Word32) :
    (step32 x).getLsbD k = (x.getLsbD (k + 1) ^^ x.getLsbD 0) := by
  rw [step32_getLsbD, h, Bool.and_true]

/-- Bit 31 of the step is the bit shifted out: the shift brings in a zero there. -/
theorem step32_getLsbD_thirtyOne (x : Word32) : (step32 x).getLsbD 31 = x.getLsbD 0 := by
  rw [step32_getLsbD_feedback (by decide), BitVec.getLsbD_of_ge x 32 le_rfl, Bool.false_xor]

/-- Settles O24, from the bits of the feedback constant (31, 21, 1 and 0). -/
theorem stepBitByBit : Obligations.StepBitByBit := by
  unfold Obligations.StepBitByBit
  refine fun x => ⟨step32_eq_xor x, step32_getLsbD_thirtyOne x, fun k hk => ?feedback,
    fun k h31 h21 h1 h0 => ?shift⟩
  case feedback => exact step32_getLsbD_feedback (by rw [tap_getLsbD]; simp only [decide_eq_true_eq]; omega) x
  case shift => exact step32_getLsbD_shift (by rw [tap_getLsbD]; simp only [decide_eq_false_iff_not]; omega) x

/-- R82: bit 31 of the step shows the bit shifted out; a step to zero therefore shifted out a zero and shifted
nothing but zeros. -/
theorem step32_ne_zero {x : Word32} (hx : x ≠ 0#32) : step32 x ≠ 0#32 := by
  intro h
  have h0 : x.getLsbD 0 = false := by rw [← step32_getLsbD_thirtyOne, h, BitVec.getLsbD_zero]
  apply hx
  apply BitVec.eq_of_getLsbD_eq
  intro k _
  rw [BitVec.getLsbD_zero]
  cases k with
  | zero => exact h0
  | succ k =>
    have hbit := step32_getLsbD x k
    rw [h, h0, BitVec.getLsbD_zero, Bool.false_and, Bool.xor_false] at hbit
    exact hbit.symm

/-! ### No generator state becomes zero (R24) -/

theorem generatorNext_ne_zero (en : Bool) {x : Word32} (hx : x ≠ 0#32) : generatorNext en x ≠ 0#32 := by
  cases en with
  | true => exact step32_ne_zero hx
  | false => exact hx

theorem setIncRegs_nonZero (v : Word16) {r : Regs} (h : r.NonZero) : (setIncRegs v r).NonZero := h

theorem resyncRegs_nonZero {r : Regs} (h : r.NonZero) : (resyncRegs r).NonZero := ⟨h.2, h.2⟩

theorem tickRegs_nonZero (T : Word16) {r : Regs} (h : r.NonZero) : (tickRegs T r).NonZero :=
  ⟨generatorNext_ne_zero _ h.1, generatorNext_ne_zero _ h.2⟩

theorem resetRegs_nonZero {p : Params} (h : p.legal = true) : (resetRegs p).NonZero := by
  obtain ⟨hA, hB, -⟩ := Params.legal_iff.mp h
  exact ⟨hA, hB⟩

theorem beforeTick_nonZero (i : Instr) {r : Regs} (h : r.NonZero) : (beforeTick i r).NonZero := by
  cases i with
  | nop | tick | reset => exact h
  | resync | resyncTick => exact resyncRegs_nonZero h
  | setinc v | setincTick v => exact setIncRegs_nonZero v h
  | setincResync v | setincResyncTick v => exact resyncRegs_nonZero (setIncRegs_nonZero v h)

theorem partsRegs_nonZero (T : Word16) (i : Instr) {r : Regs} (h : r.NonZero) : (partsRegs T i r).NonZero := by
  unfold partsRegs
  split
  · exact tickRegs_nonZero T (beforeTick_nonZero i h)
  · exact beforeTick_nonZero i h

/-- After the first RESET every command keeps the machine reset and its generators non-zero. -/
theorem exec_keeps_nonZero {i : Instr} {s t : State} (hs : s.started = true ∧ s.regs.NonZero)
    (h : exec i s = .next t) : t.started = true ∧ t.regs.NonZero := by
  obtain ⟨hstarted, hnz⟩ := hs
  obtain ⟨hl, ⟨-, rfl⟩ | ⟨-, -, rfl⟩ | ⟨-, hfalse, -⟩⟩ := exec_next_cases h
  · exact ⟨rfl, resetRegs_nonZero hl⟩
  · exact ⟨hstarted, partsRegs_nonZero _ i hnz⟩
  · rw [hstarted] at hfalse
    cases hfalse

/-- What the reset state has and every command keeps, every reachable state has. -/
theorem Reachable.induction {P : State → Prop} {p : Params} {s : State} (hr : Reachable p s)
    (hreset : P (State.resetOf p)) (hexec : ∀ i s t, P s → exec i s = .next t → P t) : P s := by
  obtain ⟨is, his⟩ := hr
  exact runCommands_keeps (fun i _ => hexec i) hreset his

/-- Settles O44: legal seeds are non-zero, and every command keeps both generators non-zero. -/
theorem generatorsNeverZero : Obligations.GeneratorsNeverZero := by
  unfold Obligations.GeneratorsNeverZero
  intro p s hp hr
  have hinv : s.started = true ∧ s.regs.NonZero :=
    hr.induction ⟨rfl, resetRegs_nonZero hp⟩ fun _ _ _ => exec_keeps_nonZero
  exact hinv.2

/-! ### The reset state (R160) -/

/-- RESET leaves the reset state of an instance as it is. -/
theorem exec_reset_resetOf {p : Params} (h : p.legal = true) :
    exec .reset (State.resetOf p) = .next (State.resetOf p) := by
  rw [exec_reset, atResetEdge_legal h]
  rfl

/-- Settles O19: the fields are the defaults of R7, and the reset state is that of the default instance. -/
theorem resetStateHoldsTheDefaults : Obligations.ResetStateHoldsTheDefaults := by
  unfold Obligations.ResetStateHoldsTheDefaults
  have hlegal : Config.defaultParams.legal = true := by decide
  have hreset : exec .reset State.reset = .next State.reset := exec_reset_resetOf hlegal
  exact ⟨rfl, rfl, rfl, rfl, rfl, rfl, rfl, rfl, rfl, rfl, hreset⟩

end Sys2Proof.Machine
end

/-! ## Proofs of the state family: the safety invariant, who writes which field, the constant parameters, no hidden
state -/

section
namespace Sys2Proof.Machine

/-! ### What one edge of a running machine does to the registers -/

/-- The registers after one edge of a running machine: the reset values, or the parts of the command in the order
of R47. They depend on the parameters and the registers alone. -/
def edgeRegs (p : Params) (i : Instr) (r : Regs) : Regs :=
  if i.isReset then resetRegs p else partsRegs p.targetDroppedSamples i r

theorem edgeRegs_reset {i : Instr} (hi : i.isReset = true) (p : Params) (r : Regs) :
    edgeRegs p i r = resetRegs p := if_pos hi

theorem edgeRegs_parts {i : Instr} (hi : i.isReset = false) (p : Params) (r : Regs) :
    edgeRegs p i r = partsRegs p.targetDroppedSamples i r := if_neg (by simp [hi])

/-- A running machine completes every command, RESET included, and only its registers change. -/
theorem exec_running_edge {s : State} (h : s.Running) (i : Instr) :
    exec i s = .next { s with regs := edgeRegs s.params i s.regs } := by
  cases hi : i.isReset with
  | false => rw [exec_running h hi, edgeRegs_parts hi]
  | true => rw [isReset_iff.mp hi, exec_reset, atResetEdge_legal h.1, edgeRegs_reset rfl, ← h.2]

/-- A running machine completes every list of commands, and only its registers change. -/
theorem runCommands_running_edges (is : List Instr) {s : State} (h : s.Running) :
    runCommands is s = .next { s with regs := is.foldl (fun r i => edgeRegs s.params i r) s.regs } := by
  induction is generalizing s with
  | nil => rfl
  | cons i is ih =>
    rw [runCommands_cons_next (exec_running_edge h i)]
    exact ih (running_withRegs h _)

/-! ### What the parts of a command leave unchanged (R32) -/

theorem partsRegs_noTick {i : Instr} (h : i.hasTick = false) (T : Word16) (r : Regs) :
    partsRegs T i r = beforeTick i r := if_neg (by simp [h])

theorem partsRegs_inc (T : Word16) (i : Instr) (r : Regs) : (partsRegs T i r).inc = (beforeTick i r).inc := by
  unfold partsRegs
  split
  · exact tickRegs_inc T _
  · rfl

/-- The increment before the TICK part is what the SETINC part wrote, where there is one. -/
theorem beforeTick_inc (i : Instr) (r : Regs) : (beforeTick i r).inc = i.setincPart.getD r.inc := by
  cases i <;> rfl

theorem beforeTick_B (i : Instr) (r : Regs) : (beforeTick i r).B = r.B := by cases i <;> rfl
theorem beforeTick_acc (i : Instr) (r : Regs) : (beforeTick i r).acc = r.acc := by cases i <;> rfl
theorem beforeTick_duty_a (i : Instr) (r : Regs) : (beforeTick i r).duty_a = r.duty_a := by cases i <;> rfl
theorem beforeTick_duty_b (i : Instr) (r : Regs) : (beforeTick i r).duty_b = r.duty_b := by cases i <;> rfl

/-- Without RESYNC the registers before the TICK part differ at most in the increment. -/
theorem beforeTick_noResync {i : Instr} (h : i.hasResync = false) (r : Regs) :
    beforeTick i r = setIncRegs (i.setincPart.getD r.inc) r := by
  cases i with
  | nop | tick | reset | setinc | setincTick => rfl
  | resync | resyncTick | setincResync | setincResyncTick => cases h

/-- A register that the SETINC and the RESYNC part keep, only TICK and RESET write. -/
theorem tick_or_reset_of_edge_ne {α : Type} {field : Regs → α} {p : Params} {i : Instr} {r : Regs}
    (hkeep : field (beforeTick i r) = field r) (hne : field (edgeRegs p i r) ≠ field r) :
    i.hasTick = true ∨ i.isReset = true := by
  by_contra hno
  simp only [not_or, Bool.not_eq_true] at hno
  obtain ⟨htick, hreset⟩ := hno
  rw [edgeRegs_parts hreset, partsRegs_noTick htick] at hne
  exact hne hkeep

/-- A register that the SETINC part keeps, only TICK, RESYNC and RESET write. -/
theorem tick_or_resync_or_reset_of_edge_ne {α : Type} {field : Regs → α} {p : Params} {i : Instr} {r : Regs}
    (hkeep : ∀ v, field (setIncRegs v r) = field r) (hne : field (edgeRegs p i r) ≠ field r) :
    i.hasTick = true ∨ i.hasResync = true ∨ i.isReset = true := by
  cases hresync : i.hasResync with
  | true => exact .inr (.inl rfl)
  | false =>
    have hbefore : field (beforeTick i r) = field r := by rw [beforeTick_noResync hresync, hkeep]
    exact (tick_or_reset_of_edge_ne hbefore hne).imp_right .inr

/-- The increment is written by SETINC, with its operand, and by RESET. -/
theorem setinc_or_reset_of_edge_inc_ne {p : Params} {i : Instr} {r : Regs}
    (hne : (edgeRegs p i r).inc ≠ r.inc) :
    i.setincPart = some (edgeRegs p i r).inc ∨ i.isReset = true := by
  cases hreset : i.isReset with
  | true => exact .inr rfl
  | false =>
    rw [edgeRegs_parts hreset, partsRegs_inc, beforeTick_inc] at hne ⊢
    cases hset : i.setincPart with
    | some v => exact .inl rfl
    | none => rw [hset] at hne; exact absurd rfl hne

/-- Settles O50: after the first RESET a command changes the registers alone, and each of them only where it has
the part that writes it. -/
theorem onlyTheirAgentsWriteFields : Obligations.OnlyTheirAgentsWriteFields := by
  unfold Obligations.OnlyTheirAgentsWriteFields
  intro i s t hs h
  rw [exec_running_edge hs] at h
  cases h
  exact ⟨tick_or_resync_or_reset_of_edge_ne (field := Regs.A) fun _ => rfl,
    tick_or_reset_of_edge_ne (field := Regs.B) (beforeTick_B i _),
    tick_or_reset_of_edge_ne (field := Regs.acc) (beforeTick_acc i _),
    setinc_or_reset_of_edge_inc_ne,
    tick_or_resync_or_reset_of_edge_ne (field := Regs.ds) fun _ => rfl,
    tick_or_resync_or_reset_of_edge_ne (field := Regs.up) fun _ => rfl,
    tick_or_reset_of_edge_ne (field := Regs.duty_a) (beforeTick_duty_a i _),
    tick_or_reset_of_edge_ne (field := Regs.duty_b) (beforeTick_duty_b i _),
    rfl, hs.2, rfl, rfl⟩

/-! ### No hidden state (R33) -/

/-- The output ports show nothing but whether the machine has been reset and its registers. -/
theorem outDuty_congr {s t : State} (hstarted : s.started = t.started) (hregs : s.regs = t.regs) :
    outDutyA s = outDutyA t ∧ outDutyB s = outDutyB t := by
  simp only [outDutyA, outDutyB, hstarted, hregs, and_self]

/-- Settles O57: the registers after a run are a function of the parameters and the registers before it. -/
theorem noHiddenStateAtTheOutputs : Obligations.NoHiddenStateAtTheOutputs := by
  unfold Obligations.NoHiddenStateAtTheOutputs
  intro is s t hs ht hparams hregs
  refine ⟨_, _, runCommands_running_edges is hs, runCommands_running_edges is ht, ?regs, outDuty_congr ?started ?regs⟩
  case regs => simp only [hparams, hregs]
  case started => exact hs.2.trans ht.2.symm

/-! ### The parameters are constants of the instance (R30) -/

theorem exec_params {i : Instr} {s t : State} (h : exec i s = .next t) : t.params = s.params := by
  obtain ⟨-, ⟨-, rfl⟩ | ⟨-, -, rfl⟩ | ⟨-, -, rfl⟩⟩ := exec_next_cases h <;> rfl

theorem step_params {s t : State} (h : step s = .next t) : t.params = s.params :=
  (exec_params h).trans (sampleInputs_params s)

/-- What each step keeps, a run of steps keeps. -/
theorem runSteps_keeps {P : State → Prop} (hstep : ∀ s t, P s → step s = .next t → P t) {n : Nat} :
    ∀ {s t : State}, P s → runSteps n s = .next t → P t := by
  induction n with
  | zero => intro s t hp h; cases h; exact hp
  | succ n ih =>
    intro s t hp h
    obtain ⟨u, hu, hrest⟩ := runSteps_succ_cases h
    exact ih (hstep s u hp hu) hrest

/-- Settles O52: no outcome of a command writes the parameters, nor does the sampling of the ports. -/
theorem parametersNeverChange : Obligations.ParametersNeverChange := by
  unfold Obligations.ParametersNeverChange
  refine ⟨fun i s t => exec_params, fun n s t => ?steps⟩
  exact runSteps_keeps (P := fun u => u.params = s.params) (fun _ _ hu h => (step_params h).trans hu) rfl

/-! ### The lag stays in range (R108) -/

/-- A sync point, lag 0 and direction up, is in range where the depth is legal. -/
theorem inRange_of_sync {T : Word16} {r : Regs} (hT : T ≠ 0#16) (hds : r.ds = 0#16) (hup : r.up = true) :
    r.InRange T := by
  refine ⟨fun _ => ?_, fun hdown => absurd (hup.symm.trans hdown) (by decide)⟩
  rw [hds]
  exact Nat.pos_of_ne_zero fun h0 => hT (BitVec.eq_of_toNat_eq h0)

theorem setIncRegs_inRange {T : Word16} (v : Word16) {r : Regs} (h : r.InRange T) :
    (setIncRegs v r).InRange T := h

theorem resyncRegs_inRange {T : Word16} (hT : T ≠ 0#16) (r : Regs) : (resyncRegs r).InRange T :=
  inRange_of_sync hT rfl rfl

theorem resetRegs_inRange {p : Params} (h : p.legal = true) : (resetRegs p).InRange p.targetDroppedSamples := by
  obtain ⟨-, -, -, hT⟩ := Params.legal_iff.mp h
  exact inRange_of_sync hT rfl rfl

theorem tickRegs_inRange_hold {T : Word16} {r : Regs} (hov : r.ov = false) (h : r.InRange T) :
    (tickRegs T r).InRange T := by
  simpa only [Regs.InRange, tickRegs_ds, tickRegs_up, hov, dsNext_hold, upNext_hold] using h

/-- An overflow while counting up (R102, R104): the lag reaches the depth exactly when the direction turns. -/
theorem tickRegs_inRange_up {T : Word16} {r : Regs} (hov : r.ov = true) (hup : r.up = true)
    (hds : r.ds.toNat + 1 ≤ T.toNat) : (tickRegs T r).InRange T := by
  have hnew : (r.ds + 1#16).toNat = r.ds.toNat + 1 := BitVec.toNat_add_of_lt (by have := T.isLt; simp; omega)
  simp only [Regs.InRange, tickRegs_ds, tickRegs_up, hov, hup, dsNext_up, upNext_up, BitVec.toNat_eq, hnew]
  split
  · exact ⟨nofun, fun _ => by omega⟩
  · exact ⟨fun _ => by omega, nofun⟩

/-- An overflow while counting down (R103, R104): the lag reaches 0 exactly when the direction turns. -/
theorem tickRegs_inRange_down {T : Word16} {r : Regs} (hov : r.ov = true) (hdown : r.up = false)
    (hds : 1 ≤ r.ds.toNat ∧ r.ds.toNat ≤ T.toNat) : (tickRegs T r).InRange T := by
  have hnew : (r.ds - 1#16).toNat = r.ds.toNat - 1 := BitVec.toNat_sub_of_le (by simpa [BitVec.le_def] using hds.1)
  simp only [Regs.InRange, tickRegs_ds, tickRegs_up, hov, hdown, dsNext_down, upNext_down, BitVec.toNat_eq, hnew,
    BitVec.toNat_zero]
  split
  · exact ⟨fun _ => by omega, nofun⟩
  · exact ⟨nofun, fun _ => by omega⟩

theorem tickRegs_inRange {T : Word16} {r : Regs} (h : r.InRange T) : (tickRegs T r).InRange T := by
  cases hov : r.ov with
  | false => exact tickRegs_inRange_hold hov h
  | true =>
    cases hup : r.up with
    | true => exact tickRegs_inRange_up hov hup (h.1 hup)
    | false => exact tickRegs_inRange_down hov hup (h.2 hup)

theorem beforeTick_inRange {T : Word16} (hT : T ≠ 0#16) (i : Instr) {r : Regs} (h : r.InRange T) :
    (beforeTick i r).InRange T := by
  cases i with
  | nop | tick | reset => exact h
  | setinc v | setincTick v => exact setIncRegs_inRange v h
  | resync | resyncTick => exact resyncRegs_inRange hT r
  | setincResync v | setincResyncTick v => exact resyncRegs_inRange hT (setIncRegs v r)

theorem partsRegs_inRange {T : Word16} (hT : T ≠ 0#16) (i : Instr) {r : Regs} (h : r.InRange T) :
    (partsRegs T i r).InRange T := by
  unfold partsRegs
  split
  · exact tickRegs_inRange (beforeTick_inRange hT i h)
  · exact beforeTick_inRange hT i h

/-! ### The safety invariant (R24, R108) -/

theorem resetOf_safe {p : Params} (h : p.legal = true) : (State.resetOf p).Safe :=
  fun _ => ⟨resetRegs_inRange h, resetRegs_nonZero h⟩

/-- Settles O42: RESET leaves a sync point and the seeds. -/
theorem resetIsSafe : Obligations.ResetIsSafe := by
  unfold Obligations.ResetIsSafe
  have hdefault : Config.defaultParams.legal = true := by decide
  exact ⟨reset_eq_resetOf ▸ resetOf_safe hdefault, fun p => resetOf_safe⟩

/-- Every command keeps the safety invariant: RESET establishes it, after the first RESET each part keeps it, and
before the first RESET it says nothing of the registers. -/
theorem exec_keeps_safe {i : Instr} {s t : State} (hs : s.Safe) (h : exec i s = .next t) : t.Safe := by
  obtain ⟨hl, ⟨-, rfl⟩ | ⟨-, hstarted, rfl⟩ | ⟨-, hfresh, rfl⟩⟩ := exec_next_cases h
  · exact fun _ => ⟨resetRegs_inRange hl, resetRegs_nonZero hl⟩
  · obtain ⟨hrange, hnz⟩ := hs hstarted
    obtain ⟨-, -, -, hT⟩ := Params.legal_iff.mp hl
    exact fun _ => ⟨partsRegs_inRange hT i hrange, partsRegs_nonZero _ i hnz⟩
  · exact fun hstarted => absurd (hfresh.symm.trans hstarted) (by decide)

theorem sampleInputs_safe {s : State} (hs : s.Safe) : s.sampleInputs.2.Safe := by
  simpa only [State.Safe, sampleInputs_started, sampleInputs_params, sampleInputs_regs] using hs

/-- Settles O41: a step is a command in the state whose ports have been sampled, and both keep the invariant. -/
theorem stepKeepsSafe : Obligations.StepKeepsSafe := by
  unfold Obligations.StepKeepsSafe
  intro s t hs h
  exact exec_keeps_safe (sampleInputs_safe hs) h

end Sys2Proof.Machine
end

/-! ## Proofs of the memory family: words presented on successive edges, the order of the parts at one edge, a
combined command and its parts -/

section
namespace Sys2Proof.Machine

/-! ### Listed port samples run in the order of the edges (R46, D20) -/

/-- The ports that a command word names, sampled, name that word again (R61). -/
theorem commandWord_ofCommandWord (w : CommandWord) : (Inputs.ofCommandWord w).commandWord = w :=
  packWord_fields w

/-- A step runs the command that the first listed sample names, with that sample used up (R60). -/
theorem step_listed {s : State} {p : Inputs} {rest : List Inputs} (h : s.inputs = p :: rest) :
    step s = exec (decode p.commandWord) { s with inputs := rest } := by
  simp only [step, sampleInputs_cons h]

/-- With legal parameters every command completes, before the first RESET too (R140). -/
theorem exec_legal_next {s : State} (h : s.params.legal = true) (i : Instr) : ∃ t, exec i s = .next t := by
  cases hi : i.isReset with
  | true =>
    obtain rfl := isReset_iff.mp hi
    exact ⟨_, atResetEdge_legal h⟩
  | false =>
    cases hs : s.started with
    | true => exact ⟨_, exec_running ⟨h, hs⟩ hi⟩
    | false => exact ⟨_, (exec_eq_atEdge hi s).trans (atEdge_before_reset h hs i _)⟩

theorem runSteps_succ_refused {s : State} {r : Refusal} (h : step s = .refused r) (n : Nat) :
    runSteps (n + 1) s = .refused r := by
  simp only [runSteps, h]

theorem runCommands_cons_refused {i : Instr} {s : State} {r : Refusal} (h : exec i s = .refused r)
    (is : List Instr) : runCommands (i :: is) s = .refused r := by
  simp only [runCommands, h]

/-- One step for each listed sample runs the commands the samples name, in their order: no command sees the samples
of later edges, so using them up one by one or all at once is the same. -/
theorem runSteps_listed (ps : List Inputs) {s : State} {rest : List Inputs} (h : s.inputs = ps ++ rest) :
    runSteps ps.length s =
      runCommands (ps.map fun p => decode p.commandWord) { s with inputs := rest } := by
  induction ps generalizing s with
  | nil => obtain rfl : s.inputs = rest := h; rfl
  | cons p ps ih =>
    have hstep := step_listed h
    cases hl : s.params.legal with
    | true =>
      obtain ⟨t, ht⟩ := exec_legal_next hl (decode p.commandWord)
      calc runSteps (ps.length + 1) s
          = runSteps ps.length { t with inputs := ps ++ rest } :=
            runSteps_succ_next (hstep.trans (exec_withInputs ht _)) _
        _ = runCommands (ps.map fun p => decode p.commandWord) { t with inputs := rest } := ih rfl
        _ = _ := (runCommands_cons_next (exec_withInputs ht rest) _).symm
    | false =>
      have hrefused (ins : List Inputs) :
          exec (decode p.commandWord) { s with inputs := ins } = .refused .illegalParameters :=
        exec_illegal (s := { s with inputs := ins }) hl _
      exact (runSteps_succ_refused (hstep.trans (hrefused _)) _).trans
        (runCommands_cons_refused (hrefused rest) _).symm

/-- Settles O8: the presented words are the listed samples, and each sample names its word again. -/
theorem presentedWordsRunInOrder : Obligations.PresentedWordsRunInOrder := by
  unfold Obligations.PresentedWordsRunInOrder
  intro words s
  have hnames : (words.map Inputs.ofCommandWord).map (fun p => decode p.commandWord) = words.map decode := by
    simp only [List.map_map, Function.comp_def, commandWord_ofCommandWord]
  have hrun := runSteps_listed (words.map Inputs.ofCommandWord) (s := Assembler.present words s) rfl
  rwa [hnames, List.length_map] at hrun

/-! ### The parts of the command that the ports name (R47, R63) -/

theorem isReset_decode_commandWord (p : Inputs) : (decode p.commandWord).isReset = p.rst := by
  rw [Inputs.commandWord, decode_packWord]
  cases p.rst with
  | true => rfl
  | false => cases p.inc_we <;> cases p.resync <;> cases p.tick <;> rfl

/-- Without `rst` each strobe asks for its own part, and `inc_wdata` is the operand. -/
theorem parts_decode_commandWord {p : Inputs} (h : p.rst = false) :
    (decode p.commandWord).setincPart = (if p.inc_we = true then some p.inc_wdata else none) ∧
    (decode p.commandWord).hasResync = p.resync ∧ (decode p.commandWord).hasTick = p.tick := by
  rw [Inputs.commandWord, decode_packWord, h]
  cases p.inc_we <;> cases p.resync <;> cases p.tick <;> exact ⟨rfl, rfl, rfl⟩

theorem resyncRegs_setIncRegs (v : Word16) (r : Regs) : resyncRegs (setIncRegs v r) = setIncRegs v (resyncRegs r) :=
  rfl

/-- Settles O20: the strobes are the parts of the decoded command, which are applied in the order of R47. -/
theorem sameEdgeOrder : Obligations.SameEdgeOrder := by
  unfold Obligations.SameEdgeOrder
  refine ⟨fun s p hs hrst => ?parts, fun r v => resyncRegs_setIncRegs v r, fun s p hrst => ?reset⟩
  case parts =>
    obtain ⟨hset, hresync, htick⟩ := parts_decode_commandWord hrst
    rw [exec_running hs ((isReset_decode_commandWord p).trans hrst)]
    simp only [partsRegs, beforeTick, hset, hresync, htick]
    cases p.inc_we <;> rfl
  case reset => rw [isReset_iff.mp ((isReset_decode_commandWord p).trans hrst)]

/-! ### A combined command and its parts on successive edges (R47, R125 to R128) -/

/-- A command whose parts do to the registers what a list of commands does is that list, on successive edges. -/
theorem exec_eq_runCommands {i : Instr} {is : List Instr} (hi : i.isReset = false)
    (his : ∀ j ∈ is, j.isReset = false) (hregs : ∀ T r, partsRegs T i r = runRegs T is r) {s : State} (hs : s.Running) :
    exec i s = runCommands is s := by
  rw [exec_running hs hi, runCommands_running his hs, hregs]

/-- Settles O21: the parts of each combined command are the parts of its list, one command after the other. -/
theorem combinedCommandIsItsPartsInOrder : Obligations.CombinedCommandIsItsPartsInOrder := by
  unfold Obligations.CombinedCommandIsItsPartsInOrder
  intro s v hs
  refine ⟨exec_eq_runCommands rfl ?_ (fun _ _ => rfl) hs, exec_eq_runCommands rfl ?_ (fun _ _ => rfl) hs,
    exec_eq_runCommands rfl ?_ (fun _ _ => rfl) hs, exec_eq_runCommands rfl ?_ (fun _ _ => rfl) hs⟩ <;>
    simp [Instr.isReset]

end Sys2Proof.Machine
end

/-! ## Proofs of the encoding family: the command word and the command map, the sampled ports, the assembler's text -/

section
namespace Sys2Proof

/-! ### The decoder and the encoder (R61, R63) -/

/-- The decoder reads back the strobes and the operand that the encoder packs. -/
theorem decode_encode (i : Instr) : decode (encode i) = i := by
  cases i <;> exact decode_packWord _ _ _ _ _

/-- Settles O3: every command is encoded as a packed word, whose fields the decoder reads back. -/
theorem decodeOfEncode : Obligations.DecodeOfEncode := decode_encode

/-- Settles O1: the decoder evaluated on the nine words. -/
theorem sampleWordsDecode : Obligations.SampleWordsDecode := by
  unfold Obligations.SampleWordsDecode
  decide

/-- `rst` is decoded first (R63). -/
theorem decode_of_rst {w : CommandWord} (h : rstBit w = true) : decode w = .reset := if_pos h

/-! ### The command map (R63) -/

/-- A packed word under the mask of the RESET row is its `rst` bit. -/
theorem packWord_and_rst (r w s t : Bool) (d : Word16) :
    packWord r w s t d &&& 0x80000#20 = packWord r false false false 0#16 := by
  have hmask : 0x80000#20 = 0xF0000#20 &&& 0x80000#20 := by decide
  rw [hmask, ← BitVec.and_assoc, Laws.EncodedRow.packWord_and_strobes]
  revert r w s t
  decide

/-- No row looks at the low 16 bits of a word. -/
theorem packWord_and_mask {row : OpcodeRow} (h : row ∈ opcodeTable) (r w s t : Bool) (d : Word16) :
    packWord r w s t d &&& row.mask = packWord r w s t 0#16 &&& row.mask := by
  have hmask : ∀ row ∈ opcodeTable, row.mask = 0xF0000#20 ∨ row.mask = 0x80000#20 := by decide
  rcases hmask row h with hm | hm
  · rw [hm, Laws.EncodedRow.packWord_and_strobes, Laws.EncodedRow.packWord_and_strobes]
  · rw [hm, packWord_and_rst, packWord_and_rst]

/-- The row of the decoded command does not depend on the low 16 bits of the word either. -/
theorem opcodeRow_decode_packWord (r w s t : Bool) (d : Word16) :
    opcodeRow (decode (packWord r w s t d)) = opcodeRow (decode (packWord r w s t 0#16)) := by
  rw [decode_packWord, decode_packWord]
  cases r <;> cases w <;> cases s <;> cases t <;> rfl

/-- The sixteen words with 0 in the low 16 bits: each matches the row of its command and no other. -/
theorem strobes_match_exactly_their_row : ∀ r w s t : Bool,
    opcodeRow (decode (packWord r w s t 0#16)) ∈ opcodeTable ∧
    ∀ row ∈ opcodeTable, (packWord r w s t 0#16 &&& row.mask = row.bits ↔
      row = opcodeRow (decode (packWord r w s t 0#16))) := by
  decide

/-- Settles O2: neither a row nor the decoded row sees the low 16 bits, so the sixteen strobe patterns decide. -/
theorem wordMatchesExactlyItsRow : Obligations.WordMatchesExactlyItsRow := by
  unfold Obligations.WordMatchesExactlyItsRow
  refine ⟨fun _ => rfl, rfl, fun w h => decode_of_rst h, fun w => ?_⟩
  rw [← packWord_fields w, opcodeRow_decode_packWord]
  obtain ⟨hmem, hmatch⟩ :=
    strobes_match_exactly_their_row (rstBit w) (incWeBit w) (resyncBit w) (tickBit w)
  refine ⟨hmem, fun row hrow => ?_⟩
  rw [packWord_and_mask hrow]
  exact hmatch row hrow

/-! ### The ignored bits (R64) -/

/-- Without `rst` and `inc_we` the decoder looks at `resync` and `tick` alone. -/
theorem decode_without_operand {w : CommandWord} (hr : rstBit w = false) (hi : incWeBit w = false) :
    decode w = bif resyncBit w then (bif tickBit w then .resyncTick else .resync)
      else (bif tickBit w then .tick else .nop) := by
  conv_lhs => rw [← packWord_fields w, decode_packWord, hr, hi]
  rfl

/-- Settles O4: RESET is decided by `rst`, the four rows without an operand by the strobes, and a running machine
completes every command. -/
theorem ignoredBitsHaveNoEffect : Obligations.IgnoredBitsHaveNoEffect := by
  unfold Obligations.IgnoredBitsHaveNoEffect
  refine ⟨fun v w hv hw => (decode_of_rst hv).trans (decode_of_rst hw).symm, fun v w hr hi hvw => ?strobes,
    fun w s hs => ⟨_, Machine.exec_running_edge hs _, Machine.running_withRegs hs _⟩⟩
  case strobes =>
    have hresync : resyncBit v = resyncBit w := hvw 17 (by decide) (by decide)
    have htick : tickBit v = tickBit w := hvw 16 (by decide) (by decide)
    have hr' : rstBit w = false := (hvw 19 (by decide) (by decide)).symm.trans hr
    have hi' : incWeBit w = false := (hvw 18 (by decide) (by decide)).symm.trans hi
    rw [decode_without_operand hr hi, decode_without_operand hr' hi', hresync, htick]

/-! ### The ports and the word that names them (R61) -/

/-- The word that names sampled ports gives those ports back. -/
theorem ofCommandWord_commandWord (p : Inputs) : Inputs.ofCommandWord p.commandWord = p := by
  simp only [Inputs.ofCommandWord, Inputs.commandWord, rstBit_packWord, incWeBit_packWord, resyncBit_packWord,
    tickBit_packWord, incWdataField_packWord]

/-- Settles O5: the ports are the fields of a packed word, and a word is packed from its fields. -/
theorem portsNameTheWord : Obligations.PortsNameTheWord := by
  unfold Obligations.PortsNameTheWord
  refine ⟨fun p => ⟨rstBit_packWord .., incWeBit_packWord .., resyncBit_packWord .., tickBit_packWord .., ?data,
    ofCommandWord_commandWord p⟩, Machine.commandWord_ofCommandWord⟩
  case data =>
    intro k hk
    rw [Inputs.commandWord, packWord_getLsbD, if_pos hk]

/-! ### Numbers read as command words (log entry 9) -/

theorem decodeTableWord_eq_map (nbits w : Nat) :
    decodeTableWord nbits w = (commandWordOfBits nbits w).map decode := by
  unfold decodeTableWord decodeBits
  cases commandWordOfBits nbits w <;> rfl

/-- A number below 2^20, read from at least 20 bits, is its command word. -/
theorem commandWordOfBits_of_lt {nbits w : Nat} (hn : 20 ≤ nbits) (hw : w < 2 ^ 20) :
    commandWordOfBits nbits w = some (BitVec.ofNat 20 w) := by
  have hmod : w % 2 ^ nbits = w := Nat.mod_eq_of_lt (hw.trans_le (Nat.pow_le_pow_right (by decide) hn))
  simp only [commandWordOfBits, hmod, if_pos hw]

namespace Machine

theorem withFetchWord_of_some {nbits w : Nat} {cw : CommandWord} (h : commandWordOfBits nbits w = some cw)
    (s : State) : s.withFetchWord nbits w = s.driveNext (Inputs.ofCommandWord cw) := by
  simp only [State.withFetchWord, h]

/-- Ports driven for the next edge are the sample of the next step. -/
theorem step_driveNext (s : State) (p : Inputs) :
    step (s.driveNext p) = exec (decode p.commandWord) { s with inputs := s.inputs.drop 1 } :=
  step_listed (driveNext_inputs s p)

/-- Settles O7: the word that is decoded is the one driven on the ports, which name it again. -/
theorem fetchWordRunsNext : Obligations.FetchWordRunsNext := by
  unfold Obligations.FetchWordRunsNext
  refine ⟨fun s nbits w i h => ?next, fun nbits w hn hw => ?decoded⟩
  case next =>
    rw [decodeTableWord_eq_map] at h
    obtain ⟨cw, hcw, rfl⟩ := Option.map_eq_some_iff.mp h
    rw [withFetchWord_of_some hcw, step_driveNext, commandWord_ofCommandWord]
  case decoded => rw [decodeTableWord_eq_map, commandWordOfBits_of_lt hn hw, Option.map_some]

/-- Settles O6: a step samples the listed ports, or draws the free value, and runs the command they name. -/
theorem stepRunsTheSampledCommand : Obligations.StepRunsTheSampledCommand := by
  unfold Obligations.StepRunsTheSampledCommand
  refine ⟨fun s p rest => step_listed, fun s h => ?_⟩
  rw [step, sampleInputs_nil h]

end Machine
end Sys2Proof
end

section
namespace Sys2Proof.Assembler

/-! ### Source lines (R65, R66) -/

theorem plainCommand_isSome (name : CommandName) : (plainCommand name).isSome = !name.takesImm := by
  cases name <;> rfl

theorem immCommand_isSome (imm : Word16) (name : CommandName) : (immCommand imm name).isSome = name.takesImm := by
  cases name <;> rfl

theorem expandLine_plain {name : CommandName} {i : Instr} (h : plainCommand name = some i) :
    expandLine (.command name none) = .ok [i] := by
  simp only [expandLine, h]

theorem expandLine_missing {name : CommandName} (h : name.takesImm = true) :
    expandLine (.command name none) = .error .missingOperand := by
  have hnone : plainCommand name = none :=
    Option.not_isSome_iff_eq_none.mp (by simp [plainCommand_isSome, h])
  simp only [expandLine, hnone]

theorem expandLine_imm {name : CommandName} {n : Nat} {i : Instr} (h : immCommand (BitVec.ofNat 16 n) name = some i)
    (hn : n ≤ 65535) : expandLine (.command name (some n)) = .ok [i] := by
  simp only [expandLine, h, if_pos hn]

theorem expandLine_unexpected {name : CommandName} (h : name.takesImm = false) (n : Nat) :
    expandLine (.command name (some n)) = .error .unexpectedOperand := by
  have hnone : immCommand (BitVec.ofNat 16 n) name = none :=
    Option.not_isSome_iff_eq_none.mp (by simp [immCommand_isSome, h])
  simp only [expandLine, hnone]

/-- An immediate out of range is refused, never truncated. -/
theorem expandLine_outOfRange {name : CommandName} (h : name.takesImm = true) {n : Nat} (hn : 65535 < n) :
    expandLine (.command name (some n)) = .error .immediateOutOfRange := by
  obtain ⟨i, hi⟩ := Option.isSome_iff_exists.mp ((immCommand_isSome (BitVec.ofNat 16 n) name).trans h)
  simp only [expandLine, hi, if_neg (Nat.not_le.mpr hn)]

/-- A well-formed line expands, to one command for each cycle it takes. -/
theorem expandLine_wellFormed {l : SourceLine} (h : l.wellFormed = true) :
    ∃ is, expandLine l = .ok is ∧ is.length = lineCycles l := by
  match l, h with
  | .blank, _ => exact ⟨[], rfl, rfl⟩
  | .command name none, h =>
    obtain ⟨i, hi⟩ := Option.isSome_iff_exists.mp ((plainCommand_isSome name).trans h)
    exact ⟨[i], expandLine_plain hi, rfl⟩
  | .command name (some n), h =>
    obtain ⟨htakes, hn⟩ : name.takesImm = true ∧ n ≤ 65535 := by simpa [SourceLine.wellFormed] using h
    obtain ⟨i, hi⟩ := Option.isSome_iff_exists.mp ((immCommand_isSome (BitVec.ofNat 16 n) name).trans htakes)
    exact ⟨[i], expandLine_imm hi hn, rfl⟩
  | .tickn n, _ => exact ⟨_, rfl, List.length_replicate⟩
  | .idle n, _ => exact ⟨_, rfl, List.length_replicate⟩

/-- Any other line is refused. -/
theorem expandLine_illFormed {l : SourceLine} (h : l.wellFormed = false) : ∃ e, expandLine l = .error e := by
  match l, h with
  | .command name none, h => exact ⟨_, expandLine_missing (by simpa [SourceLine.wellFormed] using h)⟩
  | .command name (some n), h =>
    cases htakes : name.takesImm with
    | false => exact ⟨_, expandLine_unexpected htakes n⟩
    | true =>
      have hn : 65535 < n := by simpa [SourceLine.wellFormed, htakes] using h
      exact ⟨_, expandLine_outOfRange htakes hn⟩

theorem wellFormed_of_expandLine {l : SourceLine} {is : List Instr} (h : expandLine l = .ok is) :
    l.wellFormed = true := by
  by_contra hl
  obtain ⟨e, he⟩ := expandLine_illFormed (Bool.eq_false_iff.mpr hl)
  cases he.symm.trans h

/-- Settles O58: a well-formed line expands to as many commands as it takes cycles, and any other is refused. -/
theorem assemblerAcceptsWellFormedLines : Obligations.AssemblerAcceptsWellFormedLines := by
  unfold Obligations.AssemblerAcceptsWellFormedLines
  refine ⟨fun l => ⟨fun ⟨_, h⟩ => wellFormed_of_expandLine h, fun h => ?accepted⟩, fun l is h => ?cycles,
    fun name n h hn => expandLine_outOfRange h hn, fun n => ⟨rfl, rfl⟩⟩
  case accepted =>
    obtain ⟨is, his, -⟩ := expandLine_wellFormed h
    exact ⟨is, his⟩
  case cycles =>
    obtain ⟨js, hjs, hlength⟩ := expandLine_wellFormed (wellFormed_of_expandLine h)
    cases hjs.symm.trans h
    exact hlength

/-! ### The first word of a line -/

theorem mem_keywords_of_keywordOf {word : List Char} {k : Keyword} (h : keywordOf word = some k) :
    word ∈ keywords.map (·.1) := by
  obtain ⟨entry, hfind, -⟩ := Option.map_eq_some_iff.mp h
  have hword : entry.1 = word := by simpa using List.find?_some hfind
  exact hword ▸ List.mem_map_of_mem (List.mem_of_find?_eq_some hfind)

theorem isWord_of_keywordOf {word : List Char} {k : Keyword} (h : keywordOf word = some k) : IsWord word := by
  have htexts : keywords.map (·.1) ⊆ mnemonicTexts.map String.toList := by decide
  obtain ⟨text, htext, rfl⟩ := List.mem_map.mp (htexts (mem_keywords_of_keywordOf h))
  exact isWord_mnemonic text htext

/-- A line with an unknown first word is refused whatever follows. -/
theorem commandsOfWords_unknown {word : List Char} (h : keywordOf word = none) (operands : List (List Char)) :
    commandsOfWords (word :: operands) = .error .unknownCommand := by
  match operands with
  | [] => simp only [commandsOfWords, parseWords, h]
  | [_] => simp only [commandsOfWords, parseWords, h]
  | _ :: _ :: _ => simp only [commandsOfWords, parseWords, h]

/-! ### Lines by their first word -/

section
variable {word operand : List Char} {name : CommandName}

theorem commandsOf_command (h : keywordOf word = some (.command name)) :
    commandsOf word = expandLine (.command name none) := by
  rw [commandsOf_word (isWord_of_keywordOf h)]
  simp only [commandsOfWords, parseWords, h]

theorem commandsOf_command_number (h : keywordOf word = some (.command name)) (ho : IsWord operand) {n : Nat}
    (hn : parseImm operand = some n) :
    commandsOf (word ++ ' ' :: operand) = expandLine (.command name (some n)) := by
  rw [commandsOf_two_words (isWord_of_keywordOf h) ho]
  simp only [commandsOfWords, parseWords, h, hn]

theorem commandsOf_command_badNumber (h : keywordOf word = some (.command name)) (ho : IsWord operand)
    (hn : parseImm operand = none) : commandsOf (word ++ ' ' :: operand) = .error .badNumber := by
  rw [commandsOf_two_words (isWord_of_keywordOf h) ho]
  simp only [commandsOfWords, parseWords, h, hn]

theorem commandsOf_tickn (h : keywordOf word = some .tickn) (ho : IsWord operand) {n : Nat}
    (hn : parseDecimal operand = some n) : commandsOf (word ++ ' ' :: operand) = .ok (List.replicate n .tick) := by
  rw [commandsOf_two_words (isWord_of_keywordOf h) ho]
  simp only [commandsOfWords, parseWords, h, hn, expandLine]

theorem commandsOf_idle (h : keywordOf word = some .idle) (ho : IsWord operand) {n : Nat}
    (hn : parseDecimal operand = some n) : commandsOf (word ++ ' ' :: operand) = .ok (List.replicate n .nop) := by
  rw [commandsOf_two_words (isWord_of_keywordOf h) ho]
  simp only [commandsOfWords, parseWords, h, hn, expandLine]

theorem commandsOf_pseudo_missing (h : keywordOf word = some .tickn ∨ keywordOf word = some .idle) :
    commandsOf word = .error .missingOperand := by
  rcases h with h | h <;>
    simp only [commandsOf_word (isWord_of_keywordOf h), commandsOfWords, parseWords, h]

theorem commandsOf_pseudo_badNumber (h : keywordOf word = some .tickn ∨ keywordOf word = some .idle)
    (ho : IsWord operand) (hn : parseDecimal operand = none) :
    commandsOf (word ++ ' ' :: operand) = .error .badNumber := by
  rcases h with h | h <;>
    simp only [commandsOf_two_words (isWord_of_keywordOf h) ho, commandsOfWords, parseWords, h, hn]

/-- Two operands or more are refused whatever the first word is. -/
theorem commandsOf_surplus {k : Keyword} (h : keywordOf word = some k) {operands : List (List Char)}
    (ho : ∀ operand ∈ operands, IsWord operand) (hlength : 2 ≤ operands.length) :
    commandsOf (word ++ operands.flatMap fun operand => ' ' :: operand) = .error .unexpectedOperand := by
  obtain ⟨hwords, hline⟩ := wordsOf_word_operands (isWord_of_keywordOf h) ho
  rw [commandsOf_line hline, hwords]
  match operands, hlength with
  | _ :: _ :: _, _ => simp only [parseWords, h]

/-- A mnemonic without its immediate. -/
theorem commandsOf_plain {i : Instr} (h : keywordOf word = some (.command name)) (hi : plainCommand name = some i) :
    commandsOf word = .ok [i] :=
  (commandsOf_command h).trans (expandLine_plain hi)

/-- A mnemonic with a number of 16 bits. -/
theorem commandsOf_imm {v : Word16} {i : Instr} (h : keywordOf word = some (.command name)) (ho : IsWord operand)
    (hv : parseImm operand = some v.toNat) (hi : immCommand v name = some i) :
    commandsOf (word ++ ' ' :: operand) = .ok [i] := by
  have hi' : immCommand (BitVec.ofNat 16 v.toNat) name = some i := by rwa [BitVec.ofNat_toNat, BitVec.setWidth_eq]
  exact (commandsOf_command_number h ho hv).trans (expandLine_imm hi' (by omega))

end

/-! ### Numbers (R65, R66) -/

theorem isDigit_digitChar : ∀ d < 10, d.digitChar.isDigit = true := by decide

/-- No letter is a decimal digit in the other case. -/
theorem toLower_eq_of_isDigit {c : Char} (h : c.toLower.isDigit = true) : c.toLower = c := by
  refine Char.toLower_eq_of_not_isUpper fun hupper => ?_
  have hlower : c.toLower.isLower = true := by simp [Char.isAlpha, hupper]
  simp [Char.isLower, Char.isDigit, UInt32.le_iff_toNat_le] at h hlower
  omega

theorem digitOf_ten_eq_none {c : Char} (h : c.isDigit = false) : digitOf 10 c = none := by
  refine digitOf_eq_none.mpr fun d hd hc => ?_
  have hdigit : c.toLower.isDigit = true := hc ▸ isDigit_digitChar d hd
  rw [toLower_eq_of_isDigit hdigit, h] at hdigit
  cases hdigit

theorem parseDecimal_eq_none {operand : List Char} (h : ∃ c ∈ operand, c.isDigit = false) :
    parseDecimal operand = none := by
  obtain ⟨c, hc, hdigit⟩ := h
  match operand with
  | [] => rfl
  | _ :: _ => exact numberFrom_eq_none ⟨c, hc, digitOf_ten_eq_none hdigit⟩

/-- A decimal number does not begin with `0x`, so it is an immediate of its value. -/
theorem parseImm_decimal (zeros n : Nat) :
    parseImm (List.replicate zeros '0' ++ Nat.toDigits 10 n) = some n := by
  have hvalue := parseDecimal_decimal zeros n
  refine (parseImm_of_no_prefix fun digits hx => ?_).trans hvalue
  have hnone := parseDecimal_eq_none (operand := '0' :: 'x' :: digits) ⟨'x', by simp, rfl⟩
  rw [hx, hnone] at hvalue
  cases hvalue

/-- `0x` with 1 to 4 characters after it is read as hexadecimal. -/
theorem parseImm_hex {digits : List Char} (h : digits ≠ []) (hlength : digits.length ≤ 4) :
    parseImm ('0' :: 'x' :: digits) = numberFrom 16 0 digits := by
  rw [parseImm, if_pos ⟨List.length_pos_iff.mpr h, hlength⟩]

theorem parseImm_hex_eq_none {digits : List Char}
    (h : digits = [] ∨ 4 < digits.length ∨ ∃ c ∈ digits, ∀ d < 16, c.toLower ≠ Nat.digitChar d) :
    parseImm ('0' :: 'x' :: digits) = none := by
  rw [parseImm]
  split
  · rename_i hlength
    rcases h with rfl | hlong | ⟨c, hc, hdigit⟩
    · exact absurd hlength.1 (by decide)
    · exact absurd hlength.2 (Nat.not_le.mpr hlong)
    · exact numberFrom_eq_none ⟨c, hc, digitOf_eq_none.mpr hdigit⟩
  · rfl

section
variable {digits : List Char} {zeros n : Nat}
  (h : digits.map Char.toLower = List.replicate zeros '0' ++ Nat.toDigits 16 n)
include h

/-- Hexadecimal digits in either case, with leading zeros, are one word after `0x`. -/
theorem isWord_hexadecimal : IsWord ('0' :: 'x' :: digits) := by
  refine ⟨List.cons_ne_nil _ _, fun c hc => ?_⟩
  rcases List.mem_cons.mp hc with rfl | hc
  · decide
  rcases List.mem_cons.mp hc with rfl | hc
  · decide
  have hlower : c.toLower ∈ List.replicate zeros '0' ++ Nat.toDigits 16 n := h ▸ List.mem_map_of_mem hc
  rcases List.mem_append.mp hlower with hzero | hdigit
  · exact digit_not_separator (d := 0) (by decide) (List.eq_of_mem_replicate hzero)
  · obtain ⟨d, hd, hcd⟩ := mem_toDigits (by decide) hdigit
    exact digit_not_separator hd hcd

/-- Hexadecimal digits in either case, with leading zeros, are read as their value. -/
theorem parseImm_hexadecimal (hlength : digits.length ≤ 4) : parseImm ('0' :: 'x' :: digits) = some n := by
  have hne : digits ≠ [] := by
    rintro rfl
    exact toDigits_ne_nil (base := 16) (by decide) n (List.append_eq_nil_iff.mp h.symm).2
  obtain ⟨front, back, rfl, hfront, hback⟩ := List.map_eq_append_iff.mp h
  have hzeros : ∀ c ∈ front, c = '0' := by
    intro c hc
    have hlower : c.toLower = '0' := List.eq_of_mem_replicate (hfront ▸ List.mem_map_of_mem hc)
    exact (toLower_eq_of_isDigit (hlower ▸ rfl)).symm.trans hlower
  rw [parseImm_hex hne hlength, numberFrom_zeros (by decide) (by decide) hzeros]
  exact numberFrom_toDigits (by decide) (by decide) n back hback

end

/-! ### What a text writes (R65, R66) -/

/-- A text that writes commands assembles to their words, which decode to them. -/
theorem assemble_of_commandsOf {text : List Char} {is : List Instr} (h : commandsOf text = .ok is) :
    ∃ words, assemble text = .ok words ∧ words.map decode = is := by
  refine ⟨is.map encode, by simp only [assemble, h], ?_⟩
  simp only [List.map_map, Function.comp_def, decode_encode, List.map_id']

/-- A comment changes nothing of a line. -/
theorem commandsOf_append_comment {line comment : List Char} (hl : '\n' ∉ line) (hc : '\n' ∉ comment) :
    commandsOf (line ++ ';' :: comment) = commandsOf line := by
  have hline : '\n' ∉ line ++ ';' :: comment := by simp [hl, hc]
  rw [commandsOf_line hline, commandsOf_line hl, wordsOf_append_comment]

/-- The lines of a text are read one after another, and each must be accepted. -/
theorem commandsOf_append_line {before after : List Char} {is : List Instr} :
    commandsOf (before ++ '\n' :: after) = .ok is ↔
      ∃ js ks, commandsOf before = .ok js ∧ commandsOf after = .ok ks ∧ is = js ++ ks := by
  have hcut : splitOn (· == '\n') (before ++ '\n' :: after) =
      splitOn (· == '\n') before ++ splitOn (· == '\n') after := splitOn_append_sep (x := '\n') rfl before after
  simp only [commandsOf_ok, hcut]
  constructor
  · rintro ⟨ls, hparse, hexpand⟩
    obtain ⟨front, back, hfront, hback, rfl⟩ := parseLines_append_ok.mp hparse
    obtain ⟨js, ks, hjs, hks, his⟩ := expandLines_append_ok.mp hexpand
    exact ⟨js, ks, ⟨front, hfront, hjs⟩, ⟨back, hback, hks⟩, his⟩
  · rintro ⟨js, ks, ⟨front, hfront, hjs⟩, ⟨back, hback, hks⟩, his⟩
    exact ⟨front ++ back, parseLines_append_ok.mpr ⟨front, back, hfront, hback, rfl⟩,
      expandLines_append_ok.mpr ⟨js, ks, hjs, hks, his⟩⟩

/-- A number written as an immediate, in decimal or in hexadecimal, is one word and is read as that number. -/
theorem immediate_text {n zeros : Nat} {operand digits : List Char}
    (h : operand = List.replicate zeros '0' ++ Nat.toDigits 10 n ∨
      (operand = '0' :: 'x' :: digits ∧ digits.length ≤ 4 ∧
        digits.map Char.toLower = List.replicate zeros '0' ++ Nat.toDigits 16 n)) :
    IsWord operand ∧ parseImm operand = some n := by
  rcases h with rfl | ⟨rfl, hlength, hdigits⟩
  · exact ⟨isWord_decimal zeros n, parseImm_decimal zeros n⟩
  · exact ⟨isWord_hexadecimal hdigits, parseImm_hexadecimal hdigits hlength⟩

/-- Settles O59: each form by its first word and its operand, the rest by what a comment, a line and the encoder
do. -/
theorem assembledWordsDecodeToTheText : Obligations.AssembledWordsDecodeToTheText := by
  unfold Obligations.AssembledWordsDecodeToTheText
  refine ⟨fun _ _ => assemble_of_commandsOf, ?plain, fun v zeros operand digits h => ?setinc, fun n zeros => ?pseudo,
    ⟨rfl, fun comment hc => ⟨commandsOf_append_comment (line := []) (by simp) hc,
      fun line hl => commandsOf_append_comment hl hc⟩⟩, fun _ _ _ => commandsOf_append_line⟩
  case plain =>
    exact ⟨commandsOf_plain keywordOf_nop rfl, commandsOf_plain keywordOf_tick rfl,
      commandsOf_plain keywordOf_resync rfl, commandsOf_plain keywordOf_resyncTick rfl,
      commandsOf_plain keywordOf_reset rfl⟩
  case setinc =>
    obtain ⟨hword, hvalue⟩ := immediate_text h
    exact ⟨commandsOf_imm keywordOf_setinc hword hvalue rfl, commandsOf_imm keywordOf_setincTick hword hvalue rfl,
      commandsOf_imm keywordOf_setincResync hword hvalue rfl,
      commandsOf_imm keywordOf_setincResyncTick hword hvalue rfl⟩
  case pseudo =>
    have hword := isWord_decimal zeros n
    have hvalue := parseDecimal_decimal zeros n
    exact ⟨commandsOf_tickn keywordOf_tickn hword hvalue, commandsOf_idle keywordOf_idle hword hvalue⟩

/-! ### What the assembler refuses (R65, R66) -/

/-- The mnemonics that take no operand. -/
def plainNames : List (List Char) := ["NOP", "TICK", "RESYNC", "RESYNC+TICK", "RESET"].map String.toList

/-- The mnemonics that take an immediate. -/
def immNames : List (List Char) :=
  ["SETINC", "SETINC+TICK", "SETINC+RESYNC", "SETINC+RESYNC+TICK"].map String.toList

/-- The pseudo-commands. -/
def pseudoNames : List (List Char) := ["TICKN", "IDLE"].map String.toList

theorem keywordOf_plainNames : ∀ word ∈ plainNames,
    ∃ name, keywordOf word = some (.command name) ∧ name.takesImm = false := by
  simp only [plainNames, List.map_cons, List.map_nil, List.forall_mem_cons]
  exact ⟨⟨_, keywordOf_nop, rfl⟩, ⟨_, keywordOf_tick, rfl⟩, ⟨_, keywordOf_resync, rfl⟩,
    ⟨_, keywordOf_resyncTick, rfl⟩, ⟨_, keywordOf_reset, rfl⟩, List.forall_mem_nil _⟩

theorem keywordOf_immNames : ∀ word ∈ immNames,
    ∃ name, keywordOf word = some (.command name) ∧ name.takesImm = true := by
  simp only [immNames, List.map_cons, List.map_nil, List.forall_mem_cons]
  exact ⟨⟨_, keywordOf_setinc, rfl⟩, ⟨_, keywordOf_setincTick, rfl⟩, ⟨_, keywordOf_setincResync, rfl⟩,
    ⟨_, keywordOf_setincResyncTick, rfl⟩, List.forall_mem_nil _⟩

theorem keywordOf_pseudoNames : ∀ word ∈ pseudoNames,
    keywordOf word = some .tickn ∨ keywordOf word = some .idle := by
  simp only [pseudoNames, List.map_cons, List.map_nil, List.forall_mem_cons]
  exact ⟨.inl keywordOf_tickn, .inr keywordOf_idle, List.forall_mem_nil _⟩

/-- Every known first word is a name of one of the three kinds. -/
theorem keywordOf_eq_none {word : List Char} (h : word ∉ plainNames ++ immNames ++ pseudoNames) :
    keywordOf word = none := by
  have hnames : keywords.map (·.1) ⊆ plainNames ++ immNames ++ pseudoNames := by decide
  cases hk : keywordOf word with
  | none => rfl
  | some k => exact absurd (hnames (mem_keywords_of_keywordOf hk)) h

theorem keywordOf_names {word : List Char} (h : word ∈ plainNames ++ immNames ++ pseudoNames) :
    ∃ k, keywordOf word = some k := by
  simp only [List.mem_append] at h
  rcases h with (h | h) | h
  · obtain ⟨name, hk, -⟩ := keywordOf_plainNames word h
    exact ⟨_, hk⟩
  · obtain ⟨name, hk, -⟩ := keywordOf_immNames word h
    exact ⟨_, hk⟩
  · rcases keywordOf_pseudoNames word h with hk | hk
    · exact ⟨_, hk⟩
    · exact ⟨_, hk⟩

theorem commandsOf_unknown {word : List Char} (hw : IsWord word) (h : word ∉ plainNames ++ immNames ++ pseudoNames) :
    commandsOf word = .error .unknownCommand ∧
    ∀ rest, '\n' ∉ rest → commandsOf (word ++ ' ' :: rest) = .error .unknownCommand :=
  ⟨(commandsOf_word hw).trans (commandsOfWords_unknown (keywordOf_eq_none h) _),
    fun _ hr => (commandsOf_word_blank hw hr).trans (commandsOfWords_unknown (keywordOf_eq_none h) _)⟩

theorem commandsOf_missing {word : List Char} (h : word ∈ immNames ++ pseudoNames) :
    commandsOf word = .error .missingOperand := by
  rcases List.mem_append.mp h with h | h
  · obtain ⟨name, hk, htakes⟩ := keywordOf_immNames word h
    exact (commandsOf_command hk).trans (expandLine_missing htakes)
  · exact commandsOf_pseudo_missing (keywordOf_pseudoNames word h)

theorem commandsOf_plain_operand {word operand : List Char} (h : word ∈ plainNames) (ho : IsWord operand) :
    commandsOf (word ++ ' ' :: operand) =
      .error (if (parseImm operand).isSome then .unexpectedOperand else .badNumber) := by
  obtain ⟨name, hk, htakes⟩ := keywordOf_plainNames word h
  cases hn : parseImm operand with
  | none => exact commandsOf_command_badNumber hk ho hn
  | some n => exact (commandsOf_command_number hk ho hn).trans (expandLine_unexpected htakes n)

theorem commandsOf_outOfRange {word : List Char} (h : word ∈ immNames) {n : Nat} (zeros : Nat) (hn : 65535 < n) :
    commandsOf (word ++ ' ' :: (List.replicate zeros '0' ++ Nat.toDigits 10 n)) = .error .immediateOutOfRange := by
  obtain ⟨name, hk, htakes⟩ := keywordOf_immNames word h
  exact (commandsOf_command_number hk (isWord_decimal zeros n) (parseImm_decimal zeros n)).trans
    (expandLine_outOfRange htakes hn)

theorem commandsOf_imm_badNumber {word operand : List Char} (h : word ∈ immNames) (ho : IsWord operand)
    (hn : parseImm operand = none) : commandsOf (word ++ ' ' :: operand) = .error .badNumber := by
  obtain ⟨name, hk, -⟩ := keywordOf_immNames word h
  exact commandsOf_command_badNumber hk ho hn

/-- Settles O60: each refusal by the kind of the first word and by what its operands are read as. -/
theorem assemblerRefusesOtherLines : Obligations.AssemblerRefusesOtherLines := by
  unfold Obligations.AssemblerRefusesOtherLines
  refine ⟨fun word rest hw hnot hr => ?unknown, fun name => commandsOf_missing,
    fun name h operand => commandsOf_plain_operand h, fun name h operands ho hlength => ?surplus,
    fun name h n zeros => commandsOf_outOfRange h zeros,
    fun name h digits hw hbad => commandsOf_imm_badNumber h hw (parseImm_hex_eq_none hbad),
    fun operand ho hbad => ⟨fun name h => ?count, fun hnotHex name h => ?decimal⟩⟩
  case unknown =>
    obtain ⟨halone, hfollowed⟩ := commandsOf_unknown hw hnot
    exact ⟨halone, hfollowed rest hr⟩
  case surplus =>
    obtain ⟨k, hk⟩ := keywordOf_names h
    exact commandsOf_surplus hk ho hlength
  case count => exact commandsOf_pseudo_badNumber (keywordOf_pseudoNames name h) ho (parseDecimal_eq_none hbad)
  case decimal =>
    exact commandsOf_imm_badNumber h ho ((parseImm_of_no_prefix hnotHex).trans (parseDecimal_eq_none hbad))

end Sys2Proof.Assembler
end

/-! ## Proofs of the noise generator family: the inverse, the period, the independence of the two generators -/

section
namespace Sys2Proof.Machine

/-! ### The corner cases of the step (R81, R87) -/

/-- With a zero shifted out the step is the shift. -/
theorem step32_of_bit_zero_false {x : Word32} (h : x.getLsbD 0 = false) : step32 x = x >>> 1 := by
  rw [step32_eq_xor, h]
  exact BitVec.xor_zero

/-- Settles O30: bit 31 of the step is the bit shifted out; the five words are evaluated. -/
theorem stepCornerCases : Obligations.StepCornerCases := by
  unfold Obligations.StepCornerCases
  refine ⟨fun x h => ⟨step32_of_bit_zero_false h, ?clear⟩, fun x h => ?set, by decide⟩
  case clear => rw [step32_getLsbD_thirtyOne, h]
  case set => rw [step32_getLsbD_thirtyOne, h]

/-- Refutes O25 at `x = 1`: the step is the feedback constant, whose bit 20 is 0, and the sentence asks for
`x[21] ^ x[0] = 1` there. -/
theorem not_stepXorsBitTwenty : ¬ Obligations.StepXorsBitTwenty := by
  unfold Obligations.StepXorsBitTwenty
  intro h
  exact absurd (h 0x00000001#32 20 (.inl rfl)) (by decide)

/-! ### The inverse of the step (R82, R83) -/

/-- Bit 0 of the inverse is the bit that the step fed back. -/
theorem unstep32_getLsbD_zero (y : Word32) : (unstep32 y).getLsbD 0 = y.getLsbD 31 := by
  unfold unstep32
  cases h : y.getLsbD 31 <;> simp

/-- Every other bit of the inverse is the bit below it, with the feedback taken off. -/
theorem unstep32_getLsbD_succ (y : Word32) {k : Nat} (hk : k + 1 < 32) :
    (unstep32 y).getLsbD (k + 1) = (y.getLsbD k ^^ (y.getLsbD 31 && tap.getLsbD k)) := by
  have hshift (z : Word32) : (z <<< 1).getLsbD (k + 1) = z.getLsbD k := by
    simp only [BitVec.getLsbD_shiftLeft, hk, decide_true, Bool.true_and, Nat.add_sub_cancel,
      Nat.not_lt.mpr (Nat.le_add_left 1 k), decide_false, Bool.not_false]
  have hone : (0x00000001#32).getLsbD (k + 1) = false := by simp [BitVec.getLsbD_one]
  unfold unstep32
  cases h : y.getLsbD 31 with
  | false => rw [if_neg Bool.false_ne_true, hshift, Bool.false_and, Bool.xor_false]
  | true =>
    rw [if_pos rfl, BitVec.getLsbD_or, hshift, hone, Bool.or_false, BitVec.getLsbD_xor, Bool.true_and]

theorem unstep32_step32 (x : Word32) : unstep32 (step32 x) = x := by
  apply BitVec.eq_of_getLsbD_eq
  intro k hk
  cases k with
  | zero => rw [unstep32_getLsbD_zero, step32_getLsbD_thirtyOne]
  | succ k =>
    rw [unstep32_getLsbD_succ _ hk, step32_getLsbD_thirtyOne, step32_getLsbD, Bool.xor_assoc, Bool.xor_self,
      Bool.xor_false]

/-- R82: the step has a left inverse, so it is injective on a finite set. -/
theorem step32_bijective : Function.Bijective step32 :=
  Finite.injective_iff_bijective.mp (Function.LeftInverse.injective unstep32_step32)

theorem step32_unstep32 (y : Word32) : step32 (unstep32 y) = y :=
  Function.LeftInverse.rightInverse_of_surjective unstep32_step32 step32_bijective.surjective y

/-- Settles O26: injectivity from the inverse, and bit 31 shows the bit shifted out. -/
theorem stepIsBijective : Obligations.StepIsBijective := by
  unfold Obligations.StepIsBijective
  exact ⟨step32_bijective, fun _ => step32_ne_zero⟩

/-- Settles O27, bit by bit in one direction and by surjectivity of the step in the other. -/
theorem unstepInvertsStep : Obligations.UnstepInvertsStep := by
  unfold Obligations.UnstepInvertsStep
  exact fun x => ⟨rfl, unstep32_step32 x, step32_unstep32 x⟩

/-! ### Many steps by repeated squaring -/

/-- `n` applications of the function with the matrix `cols`, to the number `x`: binary digit by binary digit of `n`, the
matrix squared from one digit to the next. `fuel` bounds the digits. -/
def iterateCols : Nat → List Nat → Nat → Nat → Nat
  | 0, _, _, x => x
  | fuel + 1, cols, n, x =>
    iterateCols fuel (colsMul cols cols) (n / 2) (bif n % 2 == 1 then colsApply cols x else x)

theorem iterate_eq_square_iterate (f : Word32 → Word32) (n : Nat) (x : Word32) :
    f^[n] x = (f ∘ f)^[n / 2] (f^[n % 2] x) := by
  have hsquare : f ∘ f = f^[2] := rfl
  rw [hsquare, ← Function.iterate_mul, ← Function.iterate_add_apply, Nat.div_add_mod]

/-- Repeated squaring computes the iterates of a represented function. -/
theorem Represents.toNat_iterate {cols : List Nat} {f : Word32 → Word32} (h : Represents cols f) {fuel n : Nat}
    (hn : n < 2 ^ fuel) (x : Word32) : (f^[n] x).toNat = iterateCols fuel cols n x.toNat := by
  induction fuel generalizing cols f n x with
  | zero =>
    obtain rfl : n = 0 := by simpa using hn
    rfl
  | succ fuel ih =>
    have hhalf : n / 2 < 2 ^ fuel := by rw [Nat.pow_succ] at hn; omega
    have hdigit : (f^[n % 2] x).toNat = bif n % 2 == 1 then colsApply cols x.toNat else x.toNat := by
      rcases Nat.mod_two_eq_zero_or_one n with hmod | hmod <;> rw [hmod]
      · rfl
      · exact h x
    rw [iterate_eq_square_iterate, ih (Represents_comp h h) hhalf, hdigit, iterateCols]

/-- Whether a number of steps leads back to 1, as repeated squaring decides it. -/
theorem isPeriodicPt_step32_one_iff {n : Nat} (hn : n < 2 ^ 32) :
    Function.IsPeriodicPt step32 n 1#32 ↔ iterateCols 32 stepCols n 1 = 1 := by
  have htoNat : (step32^[n] 1#32).toNat = iterateCols 32 stepCols n 1 := Represents_step.toNat_iterate hn 1#32
  rw [← htoNat]
  exact BitVec.toNat_inj.symm

/-! ### The period of the sequence from 1 (95_test_vectors.md §2.1) -/

/-- A point that returns after `n` steps and after no `n / p` with `p` a prime factor of `n` has minimal period `n`. -/
theorem minimalPeriod_eq_of_div_prime {α : Type} {f : α → α} {x : α} {n : Nat} (hn : Function.IsPeriodicPt f n x)
    (hdiv : ∀ p, p.Prime → p ∣ n → ¬ Function.IsPeriodicPt f (n / p) x) : Function.minimalPeriod f x = n := by
  obtain ⟨a, ha⟩ := hn.minimalPeriod_dvd
  by_contra hne
  have ha1 : a ≠ 1 := fun h => hne (by rw [ha, h, Nat.mul_one])
  refine hdiv a.minFac (Nat.minFac_prime ha1) (ha ▸ a.minFac_dvd.mul_left _) ?_
  rw [Function.isPeriodicPt_iff_minimalPeriod_dvd, ha, Nat.mul_div_assoc _ a.minFac_dvd]
  exact Nat.dvd_mul_right _ _

theorem prime_factor_of_period {p : Nat} (hp : p.Prime) (hdvd : p ∣ 2 ^ 32 - 1) :
    p ∈ [3, 5, 17, 257, 65537] := by
  have hfactors : (2 ^ 32 - 1).primeFactorsList = [3, 5, 17, 257, 65537] := by simp
  rw [← hfactors]
  exact Nat.mem_primeFactorsList'.mpr ⟨hp, hdvd, by decide⟩

/-- The sequence from 1 is back at 1 after `2 ^ 32 - 1` steps, and after no such number over a prime factor. -/
theorem iterateCols_stepCols_period :
    iterateCols 32 stepCols (2 ^ 32 - 1) 1 = 1 ∧
    ∀ p ∈ [3, 5, 17, 257, 65537], iterateCols 32 stepCols ((2 ^ 32 - 1) / p) 1 ≠ 1 := by
  decide +kernel

theorem minimalPeriod_step32_one : Function.minimalPeriod step32 1#32 = 2 ^ 32 - 1 := by
  obtain ⟨hreturn, hearlier⟩ := iterateCols_stepCols_period
  refine minimalPeriod_eq_of_div_prime ((isPeriodicPt_step32_one_iff (by decide)).mpr hreturn) fun p hp hdvd => ?_
  rw [isPeriodicPt_step32_one_iff ((Nat.div_le_self _ _).trans_lt (by decide))]
  exact hearlier p (prime_factor_of_period hp hdvd)

/-! ### Every non-zero word lies on that cycle (R85) -/

theorem step32_iterate_ne_zero {x : Word32} (hx : x ≠ 0#32) (n : Nat) : step32^[n] x ≠ 0#32 :=
  Function.Iterate.rec (motive := (· ≠ 0#32)) hx (fun _ => step32_ne_zero) n

/-- The numbers of the non-zero words. -/
theorem toNat_mem_nonZero_iff (x : Word32) : x.toNat ∈ Finset.Icc 1 (2 ^ 32 - 1) ↔ x ≠ 0#32 := by
  rw [Finset.mem_Icc, ne_eq, ← BitVec.toNat_inj, BitVec.toNat_ofNat]
  have := x.isLt
  omega

/-- A sequence with that period takes `2 ^ 32 - 1` different non-zero values, so every one there is. -/
theorem exists_iterate_step32_eq {x y : Word32} (hperiod : Function.minimalPeriod step32 x = 2 ^ 32 - 1)
    (hx : x ≠ 0#32) (hy : y ≠ 0#32) : ∃ k, k < 2 ^ 32 - 1 ∧ step32^[k] x = y := by
  have hmaps : Set.MapsTo (fun k => (step32^[k] x).toNat) (Finset.range (2 ^ 32 - 1)) (Finset.Icc 1 (2 ^ 32 - 1)) :=
    fun k _ => (toNat_mem_nonZero_iff _).mpr (step32_iterate_ne_zero hx k)
  have hinj : Set.InjOn (fun k => (step32^[k] x).toNat) (Finset.range (2 ^ 32 - 1)) := by
    rw [Finset.coe_range, ← hperiod]
    exact (BitVec.toNat_injective.injOn).comp Function.iterate_injOn_Iio_minimalPeriod (Set.mapsTo_univ _ _)
  have hcard : (Finset.Icc 1 (2 ^ 32 - 1)).card ≤ (Finset.range (2 ^ 32 - 1)).card := by
    rw [Nat.card_Icc, Finset.card_range, Nat.add_sub_cancel]
  obtain ⟨k, hk, hky⟩ := Finset.surjOn_of_injOn_of_card_le _ hmaps hinj hcard ((toNat_mem_nonZero_iff y).mpr hy)
  exact ⟨k, Finset.mem_range.mp hk, BitVec.eq_of_toNat_eq hky⟩

/-- Every non-zero word lies on the cycle of 1, so it has that cycle's period. -/
theorem minimalPeriod_step32 {x : Word32} (hx : x ≠ 0#32) : Function.minimalPeriod step32 x = 2 ^ 32 - 1 := by
  obtain ⟨k, -, rfl⟩ := exists_iterate_step32_eq minimalPeriod_step32_one (by decide) hx
  have hmem : 1#32 ∈ Function.periodicPts step32 := by
    rw [← Function.minimalPeriod_pos_iff_mem_periodicPts, minimalPeriod_step32_one]
    decide
  rw [Function.minimalPeriod_apply_iterate hmem, minimalPeriod_step32_one]

/-- Settles O28: the period from 1 by repeated squaring, every other non-zero word on the cycle of 1 by counting. -/
theorem generatorPeriodIsMaximal : Obligations.GeneratorPeriodIsMaximal := by
  unfold Obligations.GeneratorPeriodIsMaximal
  intro x hx
  have hperiod := minimalPeriod_step32 hx
  refine ⟨?returns, fun k hpos hlt => ?notEarlier, fun y hy => ?visitsOnce⟩
  case returns =>
    rw [← hperiod]
    exact Function.iterate_minimalPeriod
  case notEarlier =>
    rw [← hperiod] at hlt
    exact Function.not_isPeriodicPt_of_pos_of_lt_minimalPeriod hpos.ne' hlt
  case visitsOnce =>
    obtain ⟨k, hlt, hk⟩ := exists_iterate_step32_eq hperiod hx hy
    refine ⟨k, ⟨hlt, hk⟩, fun j ⟨hjlt, hj⟩ => ?_⟩
    rw [← hperiod] at hlt hjlt
    exact (Function.iterate_eq_iterate_iff_of_lt_minimalPeriod hjlt hlt).mp (hj.trans hk.symm)

/-! ### The two generators do not read each other (R86) -/

/-- An edge without a RESYNC part lets B's state reach nothing but B and its own sample. -/
theorem edgeRegs_withB {i : Instr} (hi : i.hasResync = false) (p : Params) (r : Regs) (b : Word32) :
    ∃ b' d, edgeRegs p i { r with B := b } = { edgeRegs p i r with B := b', duty_b := d } := by
  cases i with
  | nop | setinc | reset | tick | setincTick => exact ⟨_, _, rfl⟩
  | resync | resyncTick | setincResync | setincResyncTick => cases hi

/-- No edge lets A's state reach anything but A and its own sample. -/
theorem edgeRegs_withA (i : Instr) (p : Params) (r : Regs) (a : Word32) :
    ∃ a' d, edgeRegs p i { r with A := a } = { edgeRegs p i r with A := a', duty_a := d } := by
  cases i <;> exact ⟨_, _, rfl⟩

theorem exec_running_regs {i : Instr} {s t : State} (hs : s.Running) (h : exec i s = .next t) :
    t.regs = edgeRegs s.params i s.regs := by
  rw [exec_running_edge hs] at h
  cases h
  rfl

/-- Settles O29: each generator's own enable in a TICK, and what the other generator's state reaches. -/
theorem generatorsStepIndependently : Obligations.GeneratorsStepIndependently := by
  unfold Obligations.GeneratorsStepIndependently
  refine ⟨fun s hs => ⟨_, exec_running_edge hs .tick, rfl, rfl⟩,
    fun i s t s' t' b hs hi ht hexec hexec' => ?withB,
    fun i s t s' t' a hs ht hexec hexec' => ?withA⟩
  case withB =>
    subst ht
    obtain ⟨b', d, hedge⟩ := edgeRegs_withB hi s.params s.regs b
    rw [exec_running_regs hs hexec, (exec_running_regs (running_withRegs hs _) hexec').trans hedge]
    exact ⟨rfl, rfl, rfl, rfl, rfl⟩
  case withA =>
    subst ht
    obtain ⟨a', d, hedge⟩ := edgeRegs_withA i s.params s.regs a
    rw [exec_running_regs hs hexec, (exec_running_regs (running_withRegs hs _) hexec').trans hedge]
    exact ⟨rfl, rfl, rfl, rfl, rfl⟩

end Sys2Proof.Machine
end

/-! ## Proofs of the phase accumulator family: the add and its carry, what a command adds, and how many of N TICKs
overflow -/

section
namespace Sys2Proof.Machine

/-! ### The 16-bit add and its carry (R90, R91, R92) -/

theorem accNext_toNat (a i : Word16) : (accNext a i).toNat = (a.toNat + i.toNat) % 65536 := BitVec.toNat_add a i

theorem overflowOf_eq_decide_lt (a i : Word16) : overflowOf a i = decide ((accNext a i).toNat < a.toNat) := rfl

/-- R92: below 2^16 the sum is no less than the old value; from 2^16 on it lost 2^16, which is more than the
increment. -/
theorem overflowOf_eq_decide_carry (a i : Word16) : overflowOf a i = decide (65536 ≤ a.toNat + i.toNat) := by
  rw [overflowOf_eq_decide_lt, accNext_toNat, decide_eq_decide]
  omega

/-- The overflow signal as the count of multiples of 2^16 that the add crosses. -/
theorem overflowOf_toNat (a i : Word16) : (overflowOf a i).toNat = (a.toNat + i.toNat) / 65536 := by
  rw [overflowOf_eq_decide_carry, Bool.toNat, Bool.cond_decide]
  split <;> omega

/-- The overflow signal is bit 16 of the sum taken at 17 bits, where it does not wrap. -/
theorem overflowOf_eq_getLsbD (a i : Word16) : overflowOf a i = (a.setWidth 17 + i.setWidth 17).getLsbD 16 := by
  have hsum : (a.setWidth 17 + i.setWidth 17).toNat = a.toNat + i.toNat := by
    simp only [BitVec.toNat_add, BitVec.toNat_setWidth]
    omega
  rw [overflowOf_eq_decide_carry, BitVec.getLsbD, hsum, Nat.testBit_eq_decide_div_mod_eq, decide_eq_decide]
  omega

/-- Settles O32: the sum of two 16-bit numbers is below 2^17, so what it lost by wrapping is its bit 16. -/
theorem overflowIsTheCarry : Obligations.OverflowIsTheCarry := by
  unfold Obligations.OverflowIsTheCarry
  refine fun a i => ⟨accNext_toNat a i, ?below, ?carry, overflowOf_eq_getLsbD a i⟩
  case below => rw [overflowOf_eq_decide_lt, decide_eq_true_eq]
  case carry => rw [overflowOf_eq_decide_carry, decide_eq_true_eq]

/-! ### What a command adds (R90, R91) -/

theorem partsRegs_tick {i : Instr} (h : i.hasTick = true) (T : Word16) (r : Regs) :
    partsRegs T i r = tickRegs T (beforeTick i r) := if_pos h

theorem partsRegs_acc_tick {i : Instr} (h : i.hasTick = true) (T : Word16) (r : Regs) :
    (partsRegs T i r).acc = accNext r.acc (partsRegs T i r).inc := by
  rw [partsRegs_tick h, tickRegs_acc, tickRegs_inc, beforeTick_acc]

theorem isReset_of_hasTick {i : Instr} (h : i.hasTick = true) : i.isReset = false := by
  cases i with
  | reset => cases h
  | _ => rfl

theorem tallyOf_ovs_tick {i : Instr} (h : i.hasTick = true) (s : State) :
    (tallyOf i s).ovs = (overflowOf s.regs.acc (i.setincPart.getD s.regs.inc)).toNat := by
  rw [tallyOf, if_pos h, ← beforeTick_acc i, ← beforeTick_inc]
  rfl

theorem tallyOf_ovs_noTick {i : Instr} (h : i.hasTick = false) (s : State) : (tallyOf i s).ovs = 0 := by
  rw [tallyOf, if_neg (by simp [h])]

/-- Settles O31: a TICK part adds the increment that the command leaves, and no other part writes the accumulator. -/
theorem accumulatorAddsTheIncrementTickReads : Obligations.AccumulatorAddsTheIncrementTickReads := by
  unfold Obligations.AccumulatorAddsTheIncrementTickReads
  refine ⟨fun i s hs hi => ⟨_, exec_running hs (isReset_of_hasTick hi), ?tick⟩,
    fun i s hs hi hreset => ⟨_, exec_running hs hreset, ?noTick⟩⟩
  case tick =>
    have hinc : (partsRegs s.params.targetDroppedSamples i s.regs).inc = i.setincPart.getD s.regs.inc :=
      (partsRegs_inc _ i _).trans (beforeTick_inc i _)
    refine ⟨?_, hinc, ?_⟩
    · rw [partsRegs_acc_tick hi, accNext_toNat]
    · rw [tallyOf_ovs_tick hi, overflowOf_eq_decide_lt, Bool.toNat, Bool.cond_decide, partsRegs_acc_tick hi, hinc]
  case noTick => exact ⟨by rw [partsRegs_noTick hi, beforeTick_acc], tallyOf_ovs_noTick hi s⟩

/-! ### How many of N TICKs overflow (R94) -/

theorem exec_tick_running {s : State} (h : s.Running) :
    exec .tick s = .next { s with regs := tickRegs s.params.targetDroppedSamples s.regs } := exec_running h rfl

theorem tally_ovs_cons_next {i : Instr} {s t : State} (h : exec i s = .next t) (is : List Instr) :
    (tally (i :: is) s).ovs = (tallyOf i s).ovs + (tally is t).ovs := by rw [tally_cons_next h]

theorem tallyOf_tick_ovs (s : State) : (tallyOf .tick s).ovs = (s.regs.acc.toNat + s.regs.inc.toNat) / 65536 :=
  (tallyOf_ovs_tick rfl s).trans (overflowOf_toNat _ _)

/-- One TICK counts the multiples of 2^16 up to `acc + inc`, the TICKs after it those from there on. -/
theorem tally_ticks_ovs (N : Nat) {s : State} (h : s.Running) :
    (tally (List.replicate N .tick) s).ovs = (s.regs.acc.toNat + N * s.regs.inc.toNat) / 65536 := by
  induction N generalizing s with
  | zero =>
    have hlt := s.regs.acc.isLt
    show 0 = _
    omega
  | succ N ih =>
    rw [List.replicate_succ, tally_ovs_cons_next (exec_tick_running h), ih (running_withRegs h _), tickRegs_acc,
      tickRegs_inc, accNext_toNat, tallyOf_tick_ovs, Nat.succ_mul]
    omega

theorem runRegs_ticks_inc (T : Word16) (N : Nat) (r : Regs) : (runRegs T (List.replicate N .tick) r).inc = r.inc := by
  induction N generalizing r with
  | zero => rfl
  | succ N ih => exact ih (tickRegs T r)

theorem runRegs_ticks_acc (T : Word16) (N : Nat) (r : Regs) :
    (runRegs T (List.replicate N .tick) r).acc.toNat = (r.acc.toNat + N * r.inc.toNat) % 65536 := by
  induction N generalizing r with
  | zero =>
    have hlt := r.acc.isLt
    show r.acc.toNat = _
    omega
  | succ N ih =>
    refine (ih (tickRegs T r)).trans ?_
    rw [tickRegs_acc, tickRegs_inc, accNext_toNat, Nat.succ_mul]
    omega

/-- Settles O34, by induction on the number of TICKs. -/
theorem overflowCountIsExact : Obligations.OverflowCountIsExact := by
  unfold Obligations.OverflowCountIsExact
  refine fun N s hs => ⟨tally_ticks_ovs N hs, _, runCommands_running (fun i hi => ?ticks) hs,
    runRegs_ticks_acc _ N _, runRegs_ticks_inc _ N _⟩
  case ticks => rw [List.eq_of_mem_replicate hi]; rfl

/-! ### The rate and the corner cases of the increment (R93, R95) -/

/-- Over 2^16 TICKs the accumulator returns to its start and the increments add up to `inc` times 2^16. -/
theorem tally_full_period_ovs {s : State} (h : s.Running) :
    (tally (List.replicate 65536 .tick) s).ovs = s.regs.inc.toNat := by
  have hlt := s.regs.acc.isLt
  rw [tally_ticks_ovs 65536 h]
  omega

/-- Settles O35, from the exact count of R94. -/
theorem overflowRateFollowsIncrement : Obligations.OverflowRateFollowsIncrement := by
  unfold Obligations.OverflowRateFollowsIncrement
  refine ⟨fun s hs => tally_full_period_ovs hs, fun N s v hs hv => ?larger⟩
  case larger =>
    rw [tally_ticks_ovs N hs, tally_ticks_ovs N (running_withRegs hs _)]
    exact Nat.div_le_div_right (Nat.add_le_add_left (Nat.mul_le_mul_left N hv) _)

/-- Settles O33, from the carry of R92 and, for the 65536 TICKs, the count of R95. -/
theorem incrementCornerCases : Obligations.IncrementCornerCases := by
  unfold Obligations.IncrementCornerCases
  refine ⟨fun a => ⟨?keeps, ?never⟩, fun a => ⟨?takesOne, ?unlessZero⟩, fun s hs hinc => ?period,
    fun a => ⟨?upperHalf, ?alternates⟩⟩
  case keeps => exact BitVec.add_zero a
  case never =>
    have hlt := a.isLt
    rw [overflowOf_eq_decide_carry, decide_eq_false_iff_not, BitVec.toNat_ofNat]
    omega
  case takesOne => exact (BitVec.sub_eq_add_neg a 1#16).symm
  case unlessZero =>
    rw [overflowOf_eq_decide_carry, decide_eq_true_eq, BitVec.toNat_ne, BitVec.toNat_ofNat, BitVec.toNat_ofNat]
    omega
  case period => rw [tally_full_period_ovs hs, hinc]; rfl
  case upperHalf =>
    rw [overflowOf_eq_decide_carry, decide_eq_true_eq, BitVec.toNat_ofNat]
    omega
  case alternates =>
    have hlt := a.isLt
    rw [overflowOf_eq_decide_carry, overflowOf_eq_decide_carry, ← decide_not, decide_eq_decide, accNext_toNat,
      BitVec.toNat_ofNat]
    omega

end Sys2Proof.Machine
end

/-! ## Proofs of the flange FSM family: one TICK by its cases, the corner cases, the range, and how lag, step counts
and sweep move along a run -/

section
namespace Sys2Proof.Machine

/-! ### One TICK by its cases (R101 to R105) -/

/-- A TICK without overflow (R101, R105). -/
theorem tickRegs_hold (T : Word16) {r : Regs} (hov : r.ov = false) :
    (tickRegs T r).A = step32 r.A ∧ (tickRegs T r).B = step32 r.B ∧ (tickRegs T r).ds = r.ds ∧
      (tickRegs T r).up = r.up := by
  cases hup : r.up <;> simp [hov, hup]

/-- A TICK that overflows while counting up (R101, R102, R104). -/
theorem tickRegs_overflow_up (T : Word16) {r : Regs} (hov : r.ov = true) (hup : r.up = true) :
    (tickRegs T r).A = r.A ∧ (tickRegs T r).B = step32 r.B ∧ (tickRegs T r).ds = r.ds + 1#16 ∧
      (tickRegs T r).up = !decide (r.ds + 1#16 = T) := by
  simp [hov, hup]

/-- A TICK that overflows while counting down (R101, R103, R104). -/
theorem tickRegs_overflow_down (T : Word16) {r : Regs} (hov : r.ov = true) (hdown : r.up = false) :
    (tickRegs T r).A = step32 r.A ∧ (tickRegs T r).B = r.B ∧ (tickRegs T r).ds = r.ds - 1#16 ∧
      (tickRegs T r).up = decide (r.ds - 1#16 = 0#16) := by
  simp [hov, hdown]

/-- While counting up overflow holds A back. -/
theorem tickRegs_A_up (T : Word16) {r : Regs} (hup : r.up = true) :
    (tickRegs T r).A = if r.ov then r.A else step32 r.A := by
  rw [tickRegs_A, hup, enableA_up]
  cases r.ov <;> rfl

/-- While counting down overflow holds B back. -/
theorem tickRegs_B_down (T : Word16) {r : Regs} (hdown : r.up = false) :
    (tickRegs T r).B = if r.ov then r.B else step32 r.B := by
  rw [tickRegs_B, hdown, enableB_down]
  cases r.ov <;> rfl

/-- While counting down A is not held back. -/
theorem tickRegs_A_down (T : Word16) {r : Regs} (hdown : r.up = false) : (tickRegs T r).A = step32 r.A := by
  rw [tickRegs_A, hdown, enableA_down, generatorNext_true]

/-- While counting up B is not held back. -/
theorem tickRegs_B_up (T : Word16) {r : Regs} (hup : r.up = true) : (tickRegs T r).B = step32 r.B := by
  rw [tickRegs_B, hup, enableB_up, generatorNext_true]

/-- What the step enables and the overflow of one TICK add to the counts (R94, R109, R110). -/
def tickTally (r : Regs) : Tally :=
  { kA := (enableA r.up r.ov).toNat, kB := (enableB r.up r.ov).toNat, ovs := r.ov.toNat }

theorem tickTally_hold {r : Regs} (hov : r.ov = false) : tickTally r = ⟨1, 1, 0⟩ := by
  cases hup : r.up <;> rw [tickTally, hov, hup] <;> rfl

theorem tickTally_overflow_up {r : Regs} (hov : r.ov = true) (hup : r.up = true) : tickTally r = ⟨0, 1, 1⟩ := by
  rw [tickTally, hov, hup]
  rfl

theorem tickTally_overflow_down {r : Regs} (hov : r.ov = true) (hdown : r.up = false) :
    tickTally r = ⟨1, 0, 1⟩ := by
  rw [tickTally, hov, hdown]
  rfl

theorem tallyOf_hasTick {i : Instr} (h : i.hasTick = true) (s : State) :
    tallyOf i s = tickTally (beforeTick i s.regs) := if_pos h

theorem tallyOf_noTick {i : Instr} (h : i.hasTick = false) (s : State) : tallyOf i s = ⟨0, 0, 0⟩ :=
  if_neg (by simp [h])

/-! ### The lag in range does not wrap (R108) -/

theorem toNat_ds_add_one {T : Word16} {r : Regs} (h : r.InRange T) (hup : r.up = true) :
    (r.ds + 1#16).toNat = r.ds.toNat + 1 :=
  BitVec.toNat_add_of_lt (lt_of_le_of_lt (h.1 hup) T.isLt)

theorem toNat_ds_sub_one {T : Word16} {r : Regs} (h : r.InRange T) (hdown : r.up = false) :
    (r.ds - 1#16).toNat = r.ds.toNat - 1 :=
  BitVec.toNat_sub_of_le (h.2 hdown).1

/-! ### How far a run drifts from its start (R109, R110) -/

/-- Where the lag stands in its sweep of `2 T` overflows: at `ds` on the way up, at `2 T - ds` on the way down. -/
def sweepPhase (T : Word16) (r : Regs) : Nat := if r.up then r.ds.toNat else 2 * T.toNat - r.ds.toNat

theorem sweepPhase_up (T : Word16) {r : Regs} (h : r.up = true) : sweepPhase T r = r.ds.toNat := if_pos h

theorem sweepPhase_down (T : Word16) {r : Regs} (h : r.up = false) : sweepPhase T r = 2 * T.toNat - r.ds.toNat :=
  if_neg (by simp [h])

/-- From `r` the registers came to `r'` while the counts `k` were made: each generator was stepped as often as `k`
says, the lag moved by B's steps less A's, and the sweep by the overflows. -/
structure Drift (T : Word16) (k : Tally) (r r' : Regs) : Prop where
  stepsA : r'.A = step32^[k.kA] r.A
  stepsB : r'.B = step32^[k.kB] r.B
  lag : k.kB + r.ds.toNat = k.kA + r'.ds.toNat
  phase : sweepPhase T r' ≡ sweepPhase T r + k.ovs [MOD 2 * T.toNat]

namespace Drift

variable {T : Word16} {k l : Tally} {r r' r'' : Regs}

theorem refl (T : Word16) (r : Regs) : Drift T ⟨0, 0, 0⟩ r r := ⟨rfl, rfl, rfl, rfl⟩

theorem trans (h : Drift T k r r') (h' : Drift T l r' r'') :
    Drift T ⟨k.kA + l.kA, k.kB + l.kB, k.ovs + l.ovs⟩ r r'' where
  stepsA := by rw [h'.stepsA, h.stepsA, ← Function.iterate_add_apply, Nat.add_comm]
  stepsB := by rw [h'.stepsB, h.stepsB, ← Function.iterate_add_apply, Nat.add_comm]
  lag := by
    have hlag := h.lag
    have hlag' := h'.lag
    show k.kB + l.kB + r.ds.toNat = k.kA + l.kA + r''.ds.toNat
    omega
  phase := by
    rw [← Nat.add_assoc]
    exact h'.phase.trans (h.phase.add_right _)

/-- A SETINC before the start changes nothing that drifts. -/
theorem of_setInc {v : Word16} (h : Drift T k (setIncRegs v r) r') : Drift T k r r' :=
  ⟨h.stepsA, h.stepsB, h.lag, h.phase⟩

/-- R109: B was `ds` steps ahead of A, so after the drift it is as many steps ahead as the lag has become. -/
theorem lagged (h : Drift T k r r') (hr : r.Lagged) : r'.Lagged :=
  calc r'.B = step32^[k.kB] (step32^[r.ds.toNat] r.A) := by rw [h.stepsB, hr]
    _ = step32^[r'.ds.toNat + k.kA] r.A := by rw [← Function.iterate_add_apply, h.lag, Nat.add_comm]
    _ = step32^[r'.ds.toNat] r'.A := by rw [Function.iterate_add_apply, h.stepsA]

end Drift

/-- R102, R103, R105: the lag moves by one exactly when one generator is held back, up when it is A. -/
theorem tickRegs_lag {T : Word16} {r : Regs} (h : r.InRange T) :
    (tickTally r).kB + r.ds.toNat = (tickTally r).kA + (tickRegs T r).ds.toNat := by
  cases hov : r.ov with
  | false =>
    obtain ⟨-, -, hds', -⟩ := tickRegs_hold T hov
    rw [tickTally_hold hov, hds']
  | true =>
    cases hup : r.up with
    | true =>
      obtain ⟨-, -, hds', -⟩ := tickRegs_overflow_up T hov hup
      rw [tickTally_overflow_up hov hup, hds', toNat_ds_add_one h hup]
      dsimp only
      omega
    | false =>
      obtain ⟨-, -, hds', -⟩ := tickRegs_overflow_down T hov hup
      obtain ⟨hpos, -⟩ := h.2 hup
      rw [tickTally_overflow_down hov hup, hds', toNat_ds_sub_one h hup]
      dsimp only
      omega

/-- An overflow on the way up: at the depth the lag stands in the middle of its sweep, whichever way it is read. -/
theorem sweepPhase_overflow_up {T : Word16} {r : Regs} (h : r.InRange T) (hov : r.ov = true) (hup : r.up = true) :
    sweepPhase T (tickRegs T r) = sweepPhase T r + 1 := by
  obtain ⟨-, -, hds', hup'⟩ := tickRegs_overflow_up T hov hup
  have hnew := toNat_ds_add_one h hup
  rw [sweepPhase_up T hup]
  by_cases hT : r.ds + 1#16 = T
  · rw [sweepPhase_down T (hup'.trans (by simp [hT])), hds', hT, ← hnew, hT]
    omega
  · rw [sweepPhase_up T (hup'.trans (by simp [hT])), hds', hnew]

/-- An overflow on the way down: at lag 0 the sweep begins again. -/
theorem sweepPhase_overflow_down {T : Word16} {r : Regs} (h : r.InRange T) (hov : r.ov = true) (hdown : r.up = false) :
    sweepPhase T (tickRegs T r) ≡ sweepPhase T r + 1 [MOD 2 * T.toNat] := by
  obtain ⟨-, -, hds', hup'⟩ := tickRegs_overflow_down T hov hdown
  obtain ⟨hpos, hle⟩ := h.2 hdown
  have hnew := toNat_ds_sub_one h hdown
  rw [sweepPhase_down T hdown]
  by_cases h0 : r.ds - 1#16 = 0#16
  · have hone : r.ds.toNat - 1 = 0 := by rw [← hnew, h0]; rfl
    have hturn : 2 * T.toNat - r.ds.toNat + 1 = 2 * T.toNat := by omega
    rw [sweepPhase_up T (hup'.trans (by simp [h0])), hds', h0, hturn]
    exact (Nat.modEq_zero_iff_dvd.mpr dvd_rfl).symm
  · have hnext : 2 * T.toNat - (r.ds.toNat - 1) = 2 * T.toNat - r.ds.toNat + 1 := by omega
    rw [sweepPhase_down T (hup'.trans (by simp [h0])), hds', hnew, hnext]

theorem tickRegs_sweepPhase {T : Word16} {r : Regs} (h : r.InRange T) :
    sweepPhase T (tickRegs T r) ≡ sweepPhase T r + r.ov.toNat [MOD 2 * T.toNat] := by
  cases hov : r.ov with
  | false =>
    obtain ⟨-, -, hds', hup'⟩ := tickRegs_hold T hov
    rw [sweepPhase, sweepPhase, hds', hup']
    rfl
  | true =>
    cases hup : r.up with
    | true => rw [sweepPhase_overflow_up h hov hup]; rfl
    | false => exact sweepPhase_overflow_down h hov hup

theorem tickRegs_drift {T : Word16} {r : Regs} (h : r.InRange T) : Drift T (tickTally r) r (tickRegs T r) where
  stepsA := generatorNext_eq_iterate _ _
  stepsB := generatorNext_eq_iterate _ _
  lag := tickRegs_lag h
  phase := tickRegs_sweepPhase h

/-! ### The lag invariant (R109) -/

theorem lagged_of_sync {r : Regs} (hds : r.ds = 0#16) (heq : r.A = r.B) : r.Lagged := by
  rw [Regs.Lagged, hds]
  exact heq.symm

theorem beforeTick_lagged (i : Instr) {r : Regs} (h : r.Lagged) : (beforeTick i r).Lagged := by
  cases i with
  | nop | tick | reset | setinc | setincTick => exact h
  | resync | resyncTick | setincResync | setincResyncTick => exact lagged_of_sync rfl rfl

theorem partsRegs_lagged {T : Word16} (hT : T ≠ 0#16) (i : Instr) {r : Regs} (hrange : r.InRange T)
    (hlag : r.Lagged) : (partsRegs T i r).Lagged := by
  unfold partsRegs
  split
  · exact (tickRegs_drift (beforeTick_inRange hT i hrange)).lagged (beforeTick_lagged i hlag)
  · exact beforeTick_lagged i hlag

/-- Every command keeps the lag invariant, RESET where it loads equal seeds: after the first RESET each part keeps
it, and before the first RESET it says nothing of the registers. -/
theorem exec_keeps_lagSafe {i : Instr} {s t : State} (hseeds : i = .reset → s.params.seedA = s.params.seedB)
    (hs : s.LagSafe) (h : exec i s = .next t) : t.LagSafe := by
  obtain ⟨hl, ⟨hi, rfl⟩ | ⟨-, hstarted, rfl⟩ | ⟨-, hfresh, rfl⟩⟩ := exec_next_cases h
  · exact fun _ => ⟨resetRegs_inRange hl, lagged_of_sync rfl (hseeds hi)⟩
  · obtain ⟨hrange, hlag⟩ := hs hstarted
    obtain ⟨-, -, -, hT⟩ := Params.legal_iff.mp hl
    exact fun _ => ⟨partsRegs_inRange hT i hrange, partsRegs_lagged hT i hrange hlag⟩
  · exact fun hstarted => absurd (hfresh.symm.trans hstarted) (by decide)

theorem sampleInputs_lagSafe {s : State} (hs : s.LagSafe) : s.sampleInputs.2.LagSafe := by
  simpa only [State.LagSafe, sampleInputs_started, sampleInputs_params, sampleInputs_regs] using hs

/-- Settles O45: a TICK in range moves the lag by B's steps less A's, RESYNC leaves equal states with lag 0, and so
does RESET where the seeds are equal. -/
theorem stepKeepsLag : Obligations.StepKeepsLag := by
  unfold Obligations.StepKeepsLag
  refine ⟨fun s t hseeds hs h => ?step, fun i s t hi hs h => ?command⟩
  case step =>
    refine exec_keeps_lagSafe (fun _ => ?_) (sampleInputs_lagSafe hs) h
    rw [sampleInputs_params, hseeds]
  case command => exact exec_keeps_lagSafe (fun hreset => absurd hreset hi) hs h

/-! ### One TICK of a running machine (R101 to R106) -/

/-- Settles O36: the enables by the direction, and what a generator does under its enable. -/
theorem stepEnables : Obligations.StepEnables := by
  unfold Obligations.StepEnables
  intro s hs
  have htally : tallyOf .tick s = tickTally s.regs := tallyOf_hasTick rfl s
  refine ⟨_, exec_tick_running hs, fun hup => ?up, fun hdown => ?down, fun hov => ?one, fun hov => ?both⟩
  case up =>
    rw [hup]
    exact ⟨rfl, rfl, tickRegs_A_up _ hup, tickRegs_B_up _ hup⟩
  case down =>
    rw [hdown]
    exact ⟨rfl, rfl, tickRegs_A_down _ hdown, tickRegs_B_down _ hdown⟩
  case one =>
    rw [htally]
    cases hup : s.regs.up with
    | true => rw [tickTally_overflow_up hov hup]; rfl
    | false => rw [tickTally_overflow_down hov hup]; rfl
  case both =>
    rw [htally, tickTally_hold hov]
    exact ⟨rfl, rfl⟩

/-- Settles O37, by the three cases of a TICK. -/
theorem lagCounterMovesOnOverflow : Obligations.LagCounterMovesOnOverflow := by
  unfold Obligations.LagCounterMovesOnOverflow
  refine fun s hs => ⟨_, exec_tick_running hs, fun hup hov => ?up, fun hdown hov => ?down, fun hov => ?hold⟩
  case up =>
    obtain ⟨-, -, hds, -⟩ := tickRegs_overflow_up s.params.targetDroppedSamples hov hup
    rw [hds]
    exact BitVec.toNat_add _ _
  case down =>
    obtain ⟨-, -, hds, -⟩ := tickRegs_overflow_down s.params.targetDroppedSamples hov hdown
    rw [hds, Nat.add_comm]
    exact BitVec.toNat_sub _ _
  case hold =>
    obtain ⟨-, -, hds, hup⟩ := tickRegs_hold s.params.targetDroppedSamples hov
    exact ⟨hds, hup⟩

/-- R104, R108: in range the lag reaches its bound on an overflow tick only and never passes it, so the equality test
decides as an ordering test on every TICK would. -/
theorem tickRegs_up_eq_ordering {T : Word16} {r : Regs} (h : r.InRange T) :
    (tickRegs T r).up = if r.up then decide ((tickRegs T r).ds.toNat < T.toNat)
      else decide ((tickRegs T r).ds.toNat = 0) := by
  cases hov : r.ov with
  | false =>
    obtain ⟨-, -, hds', hup'⟩ := tickRegs_hold T hov
    rw [hds', hup']
    cases hup : r.up with
    | true => exact (decide_eq_true (h.1 hup)).symm
    | false => exact (decide_eq_false (Nat.ne_of_gt (h.2 hup).1)).symm
  | true =>
    cases hup : r.up with
    | true =>
      obtain ⟨-, -, hds', hup'⟩ := tickRegs_overflow_up T hov hup
      have hle := h.1 hup
      rw [hds', hup', if_pos rfl, ← decide_not, decide_eq_decide, BitVec.toNat_eq, toNat_ds_add_one h hup]
      omega
    | false =>
      obtain ⟨-, -, hds', hup'⟩ := tickRegs_overflow_down T hov hup
      rw [hds', hup', if_neg Bool.false_ne_true, decide_eq_decide, BitVec.toNat_eq]
      rfl

/-- Settles O38, by the three cases of a TICK; the ordering test from the range of R108. -/
theorem flipTestIsExact : Obligations.FlipTestIsExact := by
  unfold Obligations.FlipTestIsExact
  refine ⟨fun s hs => ⟨_, exec_tick_running hs, fun hov hup => ?up, fun hov hdown => ?down, fun hov => ?hold⟩,
    fun s t hs hrange h => ?ordering⟩
  case up =>
    obtain ⟨-, -, hds', hup'⟩ := tickRegs_overflow_up s.params.targetDroppedSamples hov hup
    rw [hds', hup', Bool.not_eq_false', decide_eq_true_eq]
  case down =>
    obtain ⟨-, -, hds', hup'⟩ := tickRegs_overflow_down s.params.targetDroppedSamples hov hdown
    rw [hds', hup', decide_eq_true_eq]
  case hold =>
    obtain ⟨-, -, -, hup'⟩ := tickRegs_hold s.params.targetDroppedSamples hov
    exact hup'
  case ordering =>
    obtain rfl := Host.Outcome.next.inj ((exec_tick_running hs).symm.trans h)
    exact tickRegs_up_eq_ordering hrange

theorem ov_of_flip {T : Word16} {r : Regs} (h : (tickRegs T r).up ≠ r.up) : r.ov = true := by
  by_contra hov
  obtain ⟨-, -, -, hup'⟩ := tickRegs_hold T (Bool.eq_false_of_not_eq_true hov)
  exact h hup'

/-- Settles O39: only an overflow flips, so one channel was held back, and in the new direction it is the other one
that overflow holds back. -/
theorem flipActsFromTheNextTick : Obligations.FlipActsFromTheNextTick := by
  unfold Obligations.FlipActsFromTheNextTick
  intro s t hs h hflip
  obtain rfl := Host.Outcome.next.inj ((exec_tick_running hs).symm.trans h)
  have hov := ov_of_flip hflip
  refine ⟨_, exec_tick_running (running_withRegs hs _), fun hup => ?up, fun hdown => ?down⟩
  case up =>
    obtain ⟨hA, hB, -, -⟩ := tickRegs_overflow_up s.params.targetDroppedSamples hov hup
    rw [hup] at hflip
    exact ⟨hA, hB, tickRegs_A_down _ (Bool.eq_false_of_not_eq_true hflip)⟩
  case down =>
    obtain ⟨hA, hB, -, -⟩ := tickRegs_overflow_down s.params.targetDroppedSamples hov hdown
    rw [hdown] at hflip
    exact ⟨hB, hA, tickRegs_B_up _ (Bool.eq_true_of_not_eq_false hflip)⟩

/-! ### The corner cases of the FSM (R107) -/

theorem ov_of_inc_zero {r : Regs} (h : r.inc = 0#16) : r.ov = false := by
  rw [Regs.ov, h]
  exact (incrementCornerCases.1 r.acc).2

/-- With increment 0 no TICK overflows, so every TICK steps both generators. -/
theorem runRegs_ticks_inc_zero (T : Word16) (n : Nat) {r : Regs} (h : r.inc = 0#16) :
    (runRegs T (List.replicate n .tick) r).ds = r.ds ∧ (runRegs T (List.replicate n .tick) r).up = r.up ∧
      (runRegs T (List.replicate n .tick) r).A = step32^[n] r.A ∧
      (runRegs T (List.replicate n .tick) r).B = step32^[n] r.B := by
  induction n generalizing r with
  | zero => exact ⟨rfl, rfl, rfl, rfl⟩
  | succ n ih =>
    obtain ⟨hA, hB, hds, hup⟩ := tickRegs_hold T (ov_of_inc_zero h)
    have hrest := ih (r := tickRegs T r) h
    rwa [hA, hB, hds, hup] at hrest

/-- Settles O40, by the three cases of a TICK; the last clause by induction on the number of TICKs. -/
theorem fsmCornerCases : Obligations.FsmCornerCases := by
  unfold Obligations.FsmCornerCases
  refine ⟨fun s hs hT hup hds hov => ⟨_, exec_tick_running hs, ?depthOne⟩,
    fun s hs hup hds hov => ⟨_, exec_tick_running hs, ?pastDepth⟩,
    fun s hs hdown hds hov => ⟨_, exec_tick_running hs, ?belowZero⟩,
    fun s hs hup hds hov => ⟨_, exec_tick_running hs, ?wrapsUp⟩,
    fun n s hs hinc => ⟨_, runCommands_running (fun i hi => ?ticks) hs, ?incZero⟩⟩
  case depthOne =>
    obtain ⟨-, -, hds', hup'⟩ := tickRegs_overflow_up s.params.targetDroppedSamples hov hup
    rw [hds] at hds' hup'
    have hdown : (tickRegs s.params.targetDroppedSamples s.regs).up = false := by rw [hup', hT]; rfl
    refine ⟨hds', hdown, fun hov' => ⟨_, exec_tick_running (running_withRegs hs _), ?_⟩⟩
    obtain ⟨-, -, hds'', hup''⟩ := tickRegs_overflow_down s.params.targetDroppedSamples hov' hdown
    rw [hds'] at hds'' hup''
    exact ⟨hds'', hup''⟩
  case pastDepth =>
    obtain ⟨-, -, hds', hup'⟩ := tickRegs_overflow_up s.params.targetDroppedSamples hov hup
    have hne : s.params.targetDroppedSamples + 1#16 ≠ s.params.targetDroppedSamples := by bv_omega
    rw [hds] at hds' hup'
    exact ⟨hds', by rw [hup', decide_eq_false hne]; rfl⟩
  case belowZero =>
    obtain ⟨-, -, hds', hup'⟩ := tickRegs_overflow_down s.params.targetDroppedSamples hov hdown
    rw [hds] at hds' hup'
    exact ⟨hds', hup'⟩
  case wrapsUp =>
    obtain ⟨-, -, hds', hup'⟩ := tickRegs_overflow_up s.params.targetDroppedSamples hov hup
    obtain ⟨-, -, -, hT⟩ := Params.legal_iff.mp hs.1
    have hne : 0xFFFF#16 + 1#16 ≠ s.params.targetDroppedSamples := hT.symm
    rw [hds] at hds' hup'
    exact ⟨hds', by rw [hup', decide_eq_false hne]; rfl⟩
  case ticks => rw [List.eq_of_mem_replicate hi]; rfl
  case incZero => exact runRegs_ticks_inc_zero _ n hinc

/-! ### The range in every reachable state (R108) -/

/-- What holds of the lag at the reset state, every reachable state keeps (R108). -/
theorem Reachable.inRange {p : Params} {s : State} (hp : p.legal = true) (hr : Reachable p s) :
    s.regs.InRange p.targetDroppedSamples := by
  have hinv : s.params = p ∧ s.started = true ∧ s.Safe := by
    refine hr.induction (P := fun u => u.params = p ∧ u.started = true ∧ u.Safe) ⟨rfl, rfl, resetOf_safe hp⟩
      fun i u v hu h => ?_
    obtain ⟨hparams, hstarted, hsafe⟩ := hu
    exact ⟨(exec_params h).trans hparams, (exec_keeps_nonZero ⟨hstarted, (hsafe hstarted).2⟩ h).1,
      exec_keeps_safe hsafe h⟩
  obtain ⟨rfl, hstarted, hsafe⟩ := hinv
  exact (hsafe hstarted).1

/-- Settles O43, from the safety invariant, which the reset state has and every command keeps. -/
theorem lagStaysInRange : Obligations.LagStaysInRange := by
  unfold Obligations.LagStaysInRange
  intro p s hp hr
  obtain ⟨hup, hdown⟩ := hr.inRange hp
  refine ⟨fun h => Nat.le_sub_one_of_lt (hup h), hdown, ?_⟩
  cases h : s.regs.up with
  | true => exact Nat.le_of_lt (hup h)
  | false => exact (hdown h).2

/-! ### The drift along a run from a sync point (R109, R110) -/

theorem partsRegs_drift {i : Instr} (hi : i.hasResync = false) {s : State} {T : Word16} (h : s.regs.InRange T) :
    Drift T (tallyOf i s) s.regs (partsRegs T i s.regs) := by
  cases htick : i.hasTick with
  | true =>
    rw [tallyOf_hasTick htick, partsRegs_tick htick, beforeTick_noResync hi]
    exact (tickRegs_drift (setIncRegs_inRange _ h)).of_setInc
  | false =>
    rw [tallyOf_noTick htick, partsRegs_noTick htick, beforeTick_noResync hi]
    exact (Drift.refl T _).of_setInc

/-- Along commands without RESET and RESYNC the lag stays in range and the registers drift as the counts say. -/
theorem runRegs_drift {is : List Instr} (his : ∀ i ∈ is, i.isReset = false ∧ i.hasResync = false) {s : State}
    (hs : s.Running) (h : s.regs.InRange s.params.targetDroppedSamples) :
    (runRegs s.params.targetDroppedSamples is s.regs).InRange s.params.targetDroppedSamples ∧
    Drift s.params.targetDroppedSamples (tally is s) s.regs (runRegs s.params.targetDroppedSamples is s.regs) := by
  induction is generalizing s with
  | nil => exact ⟨h, Drift.refl _ _⟩
  | cons i is ih =>
    obtain ⟨hi, hresync⟩ := his i List.mem_cons_self
    obtain ⟨-, -, -, hT⟩ := Params.legal_iff.mp hs.1
    obtain ⟨hrange, hdrift⟩ := ih (fun j hj => his j (List.mem_cons_of_mem _ hj)) (running_withRegs hs _)
      (partsRegs_inRange hT i h)
    rw [tally_cons_next (exec_running hs hi)]
    exact ⟨hrange, (partsRegs_drift hresync h).trans hdrift⟩

/-- From a sync point on, the run completes in range, and the registers drift as the counts say. -/
theorem runCommands_drift {is : List Instr} (his : ∀ i ∈ is, i.isReset = false ∧ i.hasResync = false) {s : State}
    (hs : s.Running) (hds : s.regs.ds = 0#16) (hup : s.regs.up = true) :
    ∃ t, runCommands is s = .next t ∧ t.regs.InRange s.params.targetDroppedSamples ∧
      Drift s.params.targetDroppedSamples (tally is s) s.regs t.regs := by
  obtain ⟨-, -, -, hT⟩ := Params.legal_iff.mp hs.1
  exact ⟨_, runCommands_running (fun i hi => (his i hi).1) hs, runRegs_drift his hs (inRange_of_sync hT hds hup)⟩

/-- Settles O46: the drift of the run, with the lag 0 at its start. -/
theorem lagCountsTheDrift : Obligations.LagCountsTheDrift := by
  unfold Obligations.LagCountsTheDrift
  intro is s hs hds hup his
  obtain ⟨t, hrun, -, hdrift⟩ := runCommands_drift his hs hds hup
  refine ⟨t, hrun, ?lag, hdrift.stepsA, hdrift.stepsB, fun heq => ?equal⟩
  case lag =>
    have hlag := hdrift.lag
    rwa [hds] at hlag
  case equal =>
    have hlagged : t.regs.Lagged := hdrift.lagged (lagged_of_sync hds heq)
    exact ⟨hlagged, by rw [hlagged]; exact (Function.LeftInverse.iterate unstep32_step32 _ _).symm⟩

theorem sweepPhase_lt {T : Word16} {r : Regs} (h : r.InRange T) : sweepPhase T r < 2 * T.toNat := by
  obtain ⟨hup, hdown⟩ := h
  cases h' : r.up with
  | true => have := hup h'; rw [sweepPhase_up T h']; omega
  | false => have := hdown h'; rw [sweepPhase_down T h']; omega

/-- In range the phase tells the direction and the lag. -/
theorem up_ds_of_sweepPhase {T : Word16} {r : Regs} (h : r.InRange T) :
    (sweepPhase T r < T.toNat → r.up = true ∧ r.ds.toNat = sweepPhase T r) ∧
    (T.toNat ≤ sweepPhase T r → r.up = false ∧ r.ds.toNat = 2 * T.toNat - sweepPhase T r) := by
  cases hup : r.up with
  | true =>
    have hlt := h.1 hup
    rw [sweepPhase_up T hup]
    exact ⟨fun _ => ⟨rfl, rfl⟩, fun hge => absurd hge (Nat.not_le.mpr hlt)⟩
  | false =>
    obtain ⟨hpos, hle⟩ := h.2 hup
    rw [sweepPhase_down T hup]
    exact ⟨fun hlt => by omega, fun _ => ⟨rfl, by omega⟩⟩

/-- Settles O47: the phase of the sweep is the number of overflows modulo `2 T`, and in range it tells direction and
lag. -/
theorem sweepTakesExactlyTOverflows : Obligations.SweepTakesExactlyTOverflows := by
  unfold Obligations.SweepTakesExactlyTOverflows
  intro is s hs hds hup his T m
  obtain ⟨t, hrun, hrange, hdrift⟩ := runCommands_drift his hs hds hup
  have hphase : sweepPhase s.params.targetDroppedSamples t.regs = m := by
    have hmod := hdrift.phase
    rw [sweepPhase_up _ hup, hds, BitVec.toNat_zero, Nat.zero_add] at hmod
    exact (Nat.mod_eq_of_lt (sweepPhase_lt hrange)).symm.trans hmod
  obtain ⟨hrising, hfalling⟩ := up_ds_of_sweepPhase hrange
  rw [hphase] at hrising hfalling
  refine ⟨t, hrun, hrising, hfalling, fun heq hzero => ?equal⟩
  case equal =>
    have hlagged : t.regs.Lagged := hdrift.lagged (lagged_of_sync hds heq)
    rw [Regs.Lagged, hzero] at hlagged
    exact hlagged.symm

end Sys2Proof.Machine
end

/-! ## Proofs of the output family: TICK publishes the low bytes, the outputs hold without TICK, RESET shows 0x00 -/

section
namespace Sys2Proof.Machine

/-! ### The output sample and the output ports (R84, R118) -/

theorem lo8_getLsbD (x : Word32) {k : Nat} (hk : k < 8) : (lo8 x).getLsbD k = x.getLsbD k := by
  simp [lo8, hk]

theorem lo8_eq_ofNat_mod (x : Word32) : lo8 x = BitVec.ofNat 8 (x.toNat % 256) := by
  apply BitVec.eq_of_toNat_eq
  simp [lo8]

/-- After the first RESET the output ports show the two registers (R118). -/
theorem outDuty_withRegs {s : State} (h : s.started = true) (r : Regs) :
    outDutyA { s with regs := r } = some r.duty_a ∧ outDutyB { s with regs := r } = some r.duty_b :=
  ⟨if_pos h, if_pos h⟩

/-! ### What the parts of a command do to the two output registers -/

/-- R115, R117: whatever the SETINC and the RESYNC part did, the TICK part publishes the low bytes of the generator
states that the edge leaves. -/
theorem partsRegs_duty_tick {i : Instr} (h : i.hasTick = true) (T : Word16) (r : Regs) :
    (partsRegs T i r).duty_a = lo8 (partsRegs T i r).A ∧ (partsRegs T i r).duty_b = lo8 (partsRegs T i r).B := by
  rw [partsRegs_tick h]
  exact ⟨tickRegs_duty_a T _, tickRegs_duty_b T _⟩

/-- R116: no other part publishes. -/
theorem partsRegs_duty_noTick {i : Instr} (h : i.hasTick = false) (T : Word16) (r : Regs) :
    (partsRegs T i r).duty_a = r.duty_a ∧ (partsRegs T i r).duty_b = r.duty_b := by
  rw [partsRegs_noTick h]
  exact ⟨beforeTick_duty_a i r, beforeTick_duty_b i r⟩

/-- Settles O48: the published registers are the low bytes of the new generator states, and the ports show them. -/
theorem tickPublishesLowBytes : Obligations.TickPublishesLowBytes := by
  unfold Obligations.TickPublishesLowBytes
  intro i s hs htick
  obtain ⟨hA, hB⟩ := partsRegs_duty_tick htick s.params.targetDroppedSamples s.regs
  obtain ⟨hportA, hportB⟩ := outDuty_withRegs hs.2 (partsRegs s.params.targetDroppedSamples i s.regs)
  refine ⟨_, exec_running hs (isReset_of_hasTick htick), fun k hk => ?bits, ?portA, ?portB⟩
  case bits => exact ⟨by rw [hA, lo8_getLsbD _ hk], by rw [hB, lo8_getLsbD _ hk]⟩
  case portA => rw [hportA, hA, lo8_eq_ofNat_mod]
  case portB => rw [hportB, hB, lo8_eq_ofNat_mod]

/-- Settles O49: without TICK no part of the command publishes; RESET clears both registers, also where it is the
first (R129). -/
theorem outputsHoldWithoutTick : Obligations.OutputsHoldWithoutTick := by
  unfold Obligations.OutputsHoldWithoutTick
  refine ⟨fun i s t hs htick hreset h => ?hold, fun s t h => ?reset⟩
  case hold =>
    rw [exec_running hs hreset] at h
    cases h
    obtain ⟨hA, hB⟩ := partsRegs_duty_noTick htick s.params.targetDroppedSamples s.regs
    obtain ⟨hportA, hportB⟩ := outDuty_withRegs hs.2 (partsRegs s.params.targetDroppedSamples i s.regs)
    exact ⟨by rw [hportA, hA], by rw [hportB, hB], hA, hB⟩
  case reset =>
    obtain ⟨-, ⟨-, rfl⟩ | ⟨hno, -⟩ | ⟨hno, -⟩⟩ := exec_next_cases h
    · exact outDuty_withRegs (s := { s with started := true }) rfl (resetRegs s.params)
    · cases hno
    · cases hno

end Sys2Proof.Machine
end

/-! ## Proofs of the command family: one command after another, what each decodes from and the whole state it
leaves -/

section
namespace Sys2Proof

/-! ### The words of a row (R63) -/

/-- A word that matches a row with the mask of bits 19:16 has that row's strobes; its low 16 bits are the operand. -/
theorem eq_packWord_of_strobes (r i s t : Bool) {w : CommandWord} (h : w &&& 0xF0000#20 = packWord r i s t 0#16) :
    w = packWord r i s t (w.setWidth 16) := by
  have hdata : incWdataField w = w.setWidth 16 := (BitVec.setWidth_eq_extractLsb' (by decide)).symm
  rw [← packWord_fields w, Laws.EncodedRow.packWord_and_strobes] at h
  have hr : rstBit w = r := by simpa using congrArg rstBit h
  have hi : incWeBit w = i := by simpa using congrArg incWeBit h
  have hs : resyncBit w = s := by simpa using congrArg resyncBit h
  have ht : tickBit w = t := by simpa using congrArg tickBit h
  rw [← hdata, ← hr, ← hi, ← hs, ← ht, packWord_fields]

/-- A word of a row decodes as the row's strobes with the word's low 16 bits do. -/
theorem decode_of_strobes (r i s t : Bool) {w : CommandWord} (h : w &&& 0xF0000#20 = packWord r i s t 0#16) :
    decode w = decode (packWord r i s t (w.setWidth 16)) :=
  congrArg decode (eq_packWord_of_strobes r i s t h)

theorem rstBit_of_and_mask {w : CommandWord} (h : w &&& 0x80000#20 = 0x80000#20) : rstBit w = true := by
  rw [← packWord_fields w, packWord_and_rst] at h
  exact (rstBit_packWord _ _ _ _ _).symm.trans (congrArg rstBit h)

end Sys2Proof

namespace Sys2Proof.Machine

/-! ### NOP and SETINC (R121, R122, R131) -/

/-- Settles O10: NOP has no part, so the registers stay. -/
theorem nopChangesNothing : Obligations.NopChangesNothing := by
  unfold Obligations.NopChangesNothing
  exact ⟨fun w h => (decode_of_strobes false false false false h).trans (decode_packWord ..),
    fun s hs => exec_running hs rfl⟩

theorem exec_setinc_running {s : State} (h : s.Running) (v : Word16) :
    exec (.setinc v) s = .next { s with regs := setIncRegs v s.regs } := exec_running h rfl

/-- Settles O11: SETINC has the SETINC part alone, and with increment 0 no TICK overflows. -/
theorem setincWritesOnlyTheIncrement : Obligations.SetincWritesOnlyTheIncrement := by
  unfold Obligations.SetincWritesOnlyTheIncrement
  exact ⟨fun w h => (decode_of_strobes false true false false h).trans (decode_packWord ..),
    fun s v hs => exec_setinc_running hs v, fun s hs => exec_setinc_running hs s.regs.inc,
    fun s hs => ⟨_, exec_setinc_running hs 0#16, ov_of_inc_zero rfl⟩⟩

theorem setIncRegs_setIncRegs (u v : Word16) (r : Regs) : setIncRegs v (setIncRegs u r) = setIncRegs v r := rfl

theorem runCommands_setincs_last (vs : List Word16) (v : Word16) {s : State} (h : s.Running) :
    runCommands (vs.map .setinc ++ [.setinc v]) s = exec (.setinc v) s := by
  induction vs generalizing s with
  | nil => exact (runCommands_cons_next (exec_setinc_running h v) []).trans (exec_setinc_running h v).symm
  | cons u vs ih =>
    calc runCommands (.setinc u :: (vs.map .setinc ++ [.setinc v])) s
        = runCommands (vs.map .setinc ++ [.setinc v]) { s with regs := setIncRegs u s.regs } :=
          runCommands_cons_next (exec_setinc_running h u) _
      _ = exec (.setinc v) { s with regs := setIncRegs u s.regs } := ih (running_withRegs h _)
      _ = .next { s with regs := setIncRegs v (setIncRegs u s.regs) } :=
          exec_setinc_running (running_withRegs h _) v
      _ = exec (.setinc v) s := by rw [setIncRegs_setIncRegs, exec_setinc_running h]

/-- Settles O23, by induction on the list of values that the last write replaces. -/
theorem setincLastWriteWins : Obligations.SetincLastWriteWins := by
  unfold Obligations.SetincLastWriteWins
  exact ⟨fun r u v => setIncRegs_setIncRegs u v r, fun s vs v hs => runCommands_setincs_last vs v hs⟩

/-! ### RESYNC and RESET, and what repeating them does (R124, R129, R130) -/

/-- A command that keeps a state keeps it however often it is repeated. -/
theorem runCommands_replicate_fixed {i : Instr} {t : State} (h : exec i t = .next t) (n : Nat) :
    runCommands (List.replicate n i) t = .next t := by
  induction n with
  | zero => rfl
  | succ n ih => exact (runCommands_cons_next h _).trans ih

/-- A command that keeps the state it leaves does at `n + 1` edges what it does at one. -/
theorem runCommands_replicate_succ {i : Instr} {s t : State} (h : exec i s = .next t) (hfix : exec i t = .next t)
    (n : Nat) : runCommands (List.replicate (n + 1) i) s = exec i s :=
  (runCommands_cons_next h _).trans ((runCommands_replicate_fixed hfix n).trans h.symm)

theorem exec_resync_running {s : State} (h : s.Running) :
    exec .resync s = .next { s with regs := resyncRegs s.regs } := exec_running h rfl

theorem resyncRegs_resyncRegs (r : Regs) : resyncRegs (resyncRegs r) = resyncRegs r := rfl

/-- At a sync point RESYNC has nothing to change. -/
theorem resyncRegs_of_sync {r : Regs} (heq : r.A = r.B) (hds : r.ds = 0#16) (hup : r.up = true) :
    resyncRegs r = r :=
  Regs.ext heq.symm rfl rfl rfl hds.symm hup.symm rfl rfl

/-- Samples that name one command, whatever `inc_wdata` carries at each, run that command at each edge (R166). -/
theorem runSteps_held {i : Instr} {sample : Word16 → Inputs} (hi : ∀ d, decode (sample d).commandWord = i)
    {data : List Word16} {s : State} {rest : List Inputs} (h : s.inputs = data.map sample ++ rest) :
    runSteps data.length s = runCommands (List.replicate data.length i) { s with inputs := rest } := by
  have hnames : (data.map sample).map (fun p => decode p.commandWord) = List.replicate data.length i := by
    simp only [List.map_map, Function.comp_def, hi, List.map_const']
  have hrun := runSteps_listed (data.map sample) h
  rwa [hnames, List.length_map] at hrun

/-- Settles O13: RESYNC has the RESYNC part alone, and held samples of `resync` alone name RESYNC at each edge. -/
theorem resyncCopiesBIntoA : Obligations.ResyncCopiesBIntoA := by
  unfold Obligations.ResyncCopiesBIntoA
  refine ⟨fun w h => (decode_of_strobes false false true false h).trans (decode_packWord ..),
    fun s hs => exec_resync_running hs, fun s hs heq hds hup => ?sync,
    fun data s rest h => runSteps_held (sample := fun d => ⟨false, false, true, false, d⟩)
      (fun d => decode_packWord ..) h⟩
  case sync => rw [exec_resync_running hs, resyncRegs_of_sync heq hds hup]

/-- Settles O22: RESYNC leaves a sync point, which RESYNC keeps. -/
theorem resyncIsIdempotent : Obligations.ResyncIsIdempotent := by
  unfold Obligations.ResyncIsIdempotent
  refine ⟨resyncRegs_resyncRegs, fun n s hs => runCommands_replicate_succ (exec_resync_running hs) ?_ n⟩
  rw [exec_resync_running (running_withRegs hs _), resyncRegs_resyncRegs]

theorem exec_reset_legal {s : State} (h : s.params.legal = true) :
    exec .reset s = .next { s with started := true, regs := resetRegs s.params } := atResetEdge_legal h

/-- Settles O18: `rst` decides the decoding, the parameters alone decide the registers, and a second RESET loads the
same values. -/
theorem resetLoadsEveryField : Obligations.ResetLoadsEveryField := by
  unfold Obligations.ResetLoadsEveryField
  exact ⟨fun w h => decode_of_rst (rstBit_of_and_mask h), fun s hs => exec_reset_legal hs,
    fun n s hs => runCommands_replicate_succ (exec_reset_legal hs)
      (exec_reset_legal (s := { s with started := true, regs := resetRegs s.params }) hs) n⟩

/-! ### SETINC+RESYNC (R127) -/

/-- Settles O16: its two parts write different registers, so the list of the two commands does the same in either
order. -/
theorem setincResyncWritesBoth : Obligations.SetincResyncWritesBoth := by
  unfold Obligations.SetincResyncWritesBoth
  refine ⟨fun w h => (decode_of_strobes false true true false h).trans (decode_packWord ..),
    fun s v hs => exec_running hs rfl, fun s v hs => ⟨?resyncFirst, ?setincFirst⟩⟩
  case resyncFirst =>
    have hregs (T : Word16) (r : Regs) : partsRegs T (.setincResync v) r = runRegs T [.resync, .setinc v] r :=
      resyncRegs_setIncRegs v r
    exact exec_eq_runCommands rfl (by simp [Instr.isReset]) hregs hs
  case setincFirst =>
    obtain ⟨-, -, hparts, -⟩ := combinedCommandIsItsPartsInOrder s v hs
    exact hparts

/-! ### TICK as the pseudocode of R123 -/

theorem enableA_eq_ite (up ov : Bool) : enableA up ov = if up then !ov else true := by cases up <;> rfl

theorem enableB_eq_ite (up ov : Bool) : enableB up ov = if up then true else !ov := by cases up <;> rfl

/-- Counting down adds 65535 and wraps. -/
theorem dsNext_eq_ite (up ov : Bool) (ds : Word16) :
    dsNext up ov ds = if ov && up then BitVec.ofNat 16 (ds.toNat + 1)
      else if ov && !up then BitVec.ofNat 16 (ds.toNat + 65535) else ds := by
  cases ov with
  | false => exact dsNext_hold up ds
  | true =>
    cases up with
    | true => rfl
    | false => exact BitVec.sub_eq_add_neg ds 1#16

theorem upNext_eq_ite (T : Word16) (up ov : Bool) (ds : Word16) :
    upNext T up ov ds = if ov && up then (if ds = T then false else true)
      else if ov && !up then (if ds = 0#16 then true else false) else up := by
  cases ov with
  | false => exact upNext_hold T up ds
  | true => cases up <;> rfl

theorem lo8_eq_setWidth (x : Word32) : lo8 x = x.setWidth 8 := (BitVec.setWidth_eq_extractLsb' (by decide)).symm

/-- Settles O12, register by register: the model's functions are the branches of the pseudocode. -/
theorem tickTransition : Obligations.TickTransition := by
  unfold Obligations.TickTransition
  refine ⟨fun w h => (decode_of_strobes false false false true h).trans (decode_packWord ..), ?_⟩
  intro s hs r T accNew ov enA enB dsNew upNew aNew bNew
  have hov : r.ov = ov := overflowOf_eq_decide_lt r.acc r.inc
  have hA : (tickRegs T r).A = aNew := by rw [tickRegs_A, enableA_eq_ite, hov]; rfl
  have hB : (tickRegs T r).B = bNew := by rw [tickRegs_B, enableB_eq_ite, hov]; rfl
  have hds : (tickRegs T r).ds = dsNew := by rw [tickRegs_ds, dsNext_eq_ite, hov]
  have hup : (tickRegs T r).up = upNew := by rw [tickRegs_up, ← tickRegs_ds T, hds, upNext_eq_ite, hov]
  have hduty_a : (tickRegs T r).duty_a = BitVec.ofNat 8 aNew.toNat := by
    rw [tickRegs_duty_a, hA, lo8_eq_setWidth]; rfl
  have hduty_b : (tickRegs T r).duty_b = BitVec.ofNat 8 bNew.toNat := by
    rw [tickRegs_duty_b, hB, lo8_eq_setWidth]; rfl
  rw [exec_tick_running hs]
  congr 2
  exact Regs.ext hA hB rfl rfl hds hup hduty_a hduty_b

/-! ### Combined commands with TICK (R125, R126, R128) -/

theorem Regs.ov_eq_decide_carry (r : Regs) : r.ov = decide (65536 ≤ r.acc.toNat + r.inc.toNat) :=
  overflowOf_eq_decide_carry r.acc r.inc

/-- All registers after a TICK without overflow. -/
theorem tickRegs_eq_of_no_overflow (T : Word16) {r : Regs} (hov : r.ov = false) :
    tickRegs T r = { r with A := step32 r.A, B := step32 r.B, acc := r.acc + r.inc,
                            duty_a := (step32 r.A).setWidth 8, duty_b := (step32 r.B).setWidth 8 } := by
  obtain ⟨hA, hB, hds, hup⟩ := tickRegs_hold T hov
  exact Regs.ext hA hB rfl rfl hds hup (by rw [tickRegs_duty_a, hA, lo8_eq_setWidth])
    (by rw [tickRegs_duty_b, hB, lo8_eq_setWidth])

/-- Below 2^16 the TICK after a RESYNC steps both generators from B. -/
theorem tickRegs_resyncRegs_no_overflow (T : Word16) {r : Regs} (h : r.acc.toNat + r.inc.toNat < 65536) :
    tickRegs T (resyncRegs r) =
      { A := step32 r.B, B := step32 r.B, acc := r.acc + r.inc, inc := r.inc, ds := 0#16, up := true,
        duty_a := (step32 r.B).setWidth 8, duty_b := (step32 r.B).setWidth 8 } := by
  have hov : (resyncRegs r).ov = false :=
    (Regs.ov_eq_decide_carry _).trans (decide_eq_false (Nat.not_le.mpr h))
  exact tickRegs_eq_of_no_overflow T hov

/-- From 2^16 on the TICK after a RESYNC holds A back at B's old state: the lag is 1, which only `T = 1` takes for
its bound. -/
theorem tickRegs_resyncRegs_overflow (T : Word16) {r : Regs} (h : 65536 ≤ r.acc.toNat + r.inc.toNat) :
    tickRegs T (resyncRegs r) =
      { A := r.B, B := step32 r.B, acc := r.acc + r.inc, inc := r.inc, ds := 1#16, up := decide (T ≠ 1#16),
        duty_a := r.B.setWidth 8, duty_b := (step32 r.B).setWidth 8 } := by
  have hov : (resyncRegs r).ov = true := (Regs.ov_eq_decide_carry _).trans (decide_eq_true h)
  obtain ⟨hA, hB, hds, hup⟩ := tickRegs_overflow_up T hov (resyncRegs_up r)
  have hflip : (!decide ((resyncRegs r).ds + 1#16 = T)) = decide (T ≠ 1#16) := by
    rw [← decide_not, decide_eq_decide, ne_comm]
    rfl
  exact Regs.ext hA hB rfl rfl hds (hup.trans hflip) (by rw [tickRegs_duty_a, hA, lo8_eq_setWidth]; rfl)
    (by rw [tickRegs_duty_b, hB, lo8_eq_setWidth]; rfl)

theorem exec_resyncTick_running {s : State} (h : s.Running) : exec .resyncTick s =
    .next { s with regs := tickRegs s.params.targetDroppedSamples (resyncRegs s.regs) } := exec_running h rfl

/-- Settles O14, from the two cases of a TICK after a RESYNC. -/
theorem resyncTickTicksFromEqualStates : Obligations.ResyncTickTicksFromEqualStates := by
  unfold Obligations.ResyncTickTicksFromEqualStates
  refine ⟨fun w h => (decode_of_strobes false false true true h).trans (decode_packWord ..),
    fun s hs => exec_resyncTick_running hs, fun s hs h => ?below, fun s hs h => ?carry⟩
  case below => rw [exec_resyncTick_running hs, tickRegs_resyncRegs_no_overflow _ h]
  case carry => rw [exec_resyncTick_running hs, tickRegs_resyncRegs_overflow _ h]

theorem exec_setincTick_running {s : State} (h : s.Running) (v : Word16) : exec (.setincTick v) s =
    .next { s with regs := tickRegs s.params.targetDroppedSamples (setIncRegs v s.regs) } := exec_running h rfl

/-- Settles O15: the TICK part sees the increment that the SETINC part wrote, and with 0 it does not overflow. -/
theorem setincTickUsesTheNewIncrement : Obligations.SetincTickUsesTheNewIncrement := by
  unfold Obligations.SetincTickUsesTheNewIncrement
  refine ⟨fun w h => (decode_of_strobes false true false true h).trans (decode_packWord ..),
    fun s v hs => exec_setincTick_running hs v, fun s hs => ?zero⟩
  case zero =>
    have hacc : (setIncRegs 0#16 s.regs).acc + (setIncRegs 0#16 s.regs).inc = s.regs.acc := BitVec.add_zero _
    rw [exec_setincTick_running hs, tickRegs_eq_of_no_overflow _ (ov_of_inc_zero (setIncRegs_inc 0#16 _)), hacc]
    rfl

theorem exec_setincResyncTick_running {s : State} (h : s.Running) (v : Word16) : exec (.setincResyncTick v) s =
    .next { s with regs := tickRegs s.params.targetDroppedSamples (resyncRegs (setIncRegs v s.regs)) } :=
  exec_running h rfl

/-- Settles O17: RESYNC+TICK from the registers with the new increment. -/
theorem setincResyncTickAppliesAllThree : Obligations.SetincResyncTickAppliesAllThree := by
  unfold Obligations.SetincResyncTickAppliesAllThree
  refine ⟨fun w h => (decode_of_strobes false true true true h).trans (decode_packWord ..),
    fun s v hs => exec_setincResyncTick_running hs v, fun s v hs h => ?below, fun s v hs h => ?carry⟩
  case below =>
    rw [exec_setincResyncTick_running hs, tickRegs_resyncRegs_no_overflow (r := setIncRegs v s.regs) _ h]
    rfl
  case carry =>
    rw [exec_setincResyncTick_running hs, tickRegs_resyncRegs_overflow (r := setIncRegs v s.regs) _ h]
    rfl

end Sys2Proof.Machine
end

/-! ## Proofs of the exceptions family: a running instance never stops, and idle cycles leave it as it is -/

section
namespace Sys2Proof.Machine

/-! ### Nothing stops a running instance (R140) -/

/-- A running instance completes every command and is running after it. -/
theorem exec_stays_running {s : State} (h : s.Running) (i : Instr) : ∃ t, exec i s = .next t ∧ t.Running :=
  ⟨_, exec_running_edge h i, running_withRegs h _⟩

theorem sampleInputs_running {s : State} (h : s.Running) : s.sampleInputs.2.Running := by
  simpa only [State.Running, sampleInputs_params, sampleInputs_started] using h

/-- The same of a step: whatever the ports carry names a command, and sampling them leaves a running instance. -/
theorem step_stays_running {s : State} (h : s.Running) : ∃ t, step s = .next t ∧ t.Running :=
  exec_stays_running (sampleInputs_running h) _

theorem runSteps_stays_running (n : Nat) {s : State} (h : s.Running) : ∃ t, runSteps n s = .next t ∧ t.Running := by
  induction n generalizing s with
  | zero => exact ⟨s, rfl, h⟩
  | succ n ih =>
    obtain ⟨t, hstep, ht⟩ := step_stays_running h
    rw [runSteps_succ_next hstep]
    exact ih ht

/-- Settles O51: one command by what an edge does to a running instance, and the steps by induction on their number. -/
theorem instanceNeverStops : Obligations.InstanceNeverStops := by
  unfold Obligations.InstanceNeverStops
  exact ⟨fun i s hs => exec_stays_running hs i, fun n s hs => runSteps_stays_running n hs⟩

/-! ### Idle cycles (R153) -/

/-- NOP has no part, so a running instance keeps its whole state (R121). -/
theorem exec_nop_running {s : State} (h : s.Running) : exec .nop s = .next s := exec_running h rfl

/-- Settles O56: a run of NOPs repeats a command that keeps the state. -/
theorem idleKeepsAllState : Obligations.IdleKeepsAllState := by
  unfold Obligations.IdleKeepsAllState
  exact fun n s hs => runCommands_replicate_fixed (exec_nop_running hs) n

end Sys2Proof.Machine
end

/-! ## Proofs of the reset and hazards family: held strobes, the time before the first RESET, and the boot -/

section
namespace Sys2Proof.Machine

/-! ### Held strobes (R166) -/

/-- Settles O9: samples of one strobe alone name the same command at each edge, and `inc_wdata` is no part of it. -/
theorem heldStrobeActsAtEachEdge : Obligations.HeldStrobeActsAtEachEdge := by
  unfold Obligations.HeldStrobeActsAtEachEdge
  refine fun data s rest => ⟨fun h => ?tick, fun h => ?resync⟩
  case tick =>
    exact runSteps_held (sample := fun d => ⟨false, false, false, true, d⟩) (fun _ => decode_packWord ..) h
  case resync =>
    exact runSteps_held (sample := fun d => ⟨false, false, true, false, d⟩) (fun _ => decode_packWord ..) h

/-! ### Before the first RESET (R161) -/

theorem outDuty_before_reset {s : State} (h : s.started = false) : outDutyA s = none ∧ outDutyB s = none := by
  simp only [outDutyA, outDutyB, h, Bool.false_eq_true, if_false, and_self]

theorem isReset_of_ne {i : Instr} (h : i ≠ .reset) : i.isReset = false :=
  Bool.eq_false_iff.mpr (mt isReset_iff.mp h)

/-- Only RESET ends the time before the first RESET. -/
theorem exec_keeps_unstarted {i : Instr} {s t : State} (hi : i ≠ .reset) (hs : s.started = false)
    (h : exec i s = .next t) : t.started = false := by
  obtain ⟨-, ⟨hreset, -⟩ | ⟨-, hstarted, -⟩ | ⟨-, -, rfl⟩⟩ := exec_next_cases h
  · exact absurd hreset hi
  · exact absurd (hs.symm.trans hstarted) (by decide)
  · exact hs

/-- Settles O54: a command draws the free value and does not start the machine, so neither does a run, by the
induction along its commands. -/
theorem noValueBeforeTheFirstReset : Obligations.NoValueBeforeTheFirstReset := by
  unfold Obligations.NoValueBeforeTheFirstReset
  refine ⟨fun s => outDuty_before_reset, fun i s hl hs hi => ?command, fun is s t hs hi h => ?run⟩
  case command => exact (exec_eq_atEdge (isReset_of_ne hi) s).trans (atEdge_before_reset hl hs i _)
  case run =>
    have ht : t.started = false := runCommands_keeps (P := fun u => u.started = false)
      (fun i hmem _ _ => exec_keeps_unstarted (hi i hmem)) hs h
    exact ⟨ht, outDuty_before_reset ht⟩

/-! ### The boot (R160, R162) -/

/-- No command changes what the ports carry at later edges. -/
theorem exec_inputs {i : Instr} {s t : State} (h : exec i s = .next t) : t.inputs = s.inputs := by
  obtain ⟨-, ⟨-, rfl⟩ | ⟨-, -, rfl⟩ | ⟨-, -, rfl⟩⟩ := exec_next_cases h <;> rfl

/-- A run of one step for each listed sample uses up these samples and no other. -/
theorem runSteps_inputs {ps rest : List Inputs} {s t : State} (hs : s.inputs = ps ++ rest)
    (h : runSteps ps.length s = .next t) : t.inputs = rest := by
  rw [runSteps_listed ps hs] at h
  exact runCommands_keeps (P := fun u => u.inputs = rest) (fun _ _ _ _ hu hexec => (exec_inputs hexec).trans hu) rfl h

/-- An edge that samples `rst = 1` loads the reset values of the parameters, whatever else the ports carry (R160). -/
theorem step_rst {s : State} {p : Inputs} {rest : List Inputs} (hl : s.params.legal = true)
    (hs : s.inputs = p :: rest) (hrst : p.rst = true) :
    step s = .next { s with started := true, regs := resetRegs s.params, inputs := rest } := by
  have hreset : decode p.commandWord = .reset := isReset_iff.mp ((isReset_decode_commandWord p).trans hrst)
  rw [step_listed hs, hreset]
  exact exec_reset_legal (s := { s with inputs := rest }) hl

/-- Settles O55: the steps before the edge with `rst = 1` use up their own samples and keep the parameters, which are
legal where elaboration accepted the request. -/
theorem bootReachesTheResetState : Obligations.BootReachesTheResetState := by
  unfold Obligations.BootReachesTheResetState
  intro r junk ins p rest draws s0 s1 helab hrst hrun
  obtain ⟨hwf, rfl⟩ := elaborate_next_cases helab
  obtain ⟨-, hkeep⟩ := parametersNeverChange
  have hparams : s1.params = r.toParams := hkeep _ _ _ hrun
  have hlegal : s1.params.legal = true := hparams ▸ ParamRequest.toParams_legal hwf
  rw [step_rst hlegal (runSteps_inputs rfl hrun) hrst, hparams]

end Sys2Proof.Machine
end
